-- ==== Sys2Proof/Word.lean ====
section
/-! DEFINITION. The widths the spec fixes (00_scope.md R4), as names. -/

namespace Sys2Proof

/-- One payload byte, one `u8` message field, one 8-bit register. -/
abbrev Byte := BitVec 8

/-- A node number, 0 to 63 (R52). -/
abbrev NodeId := BitVec 6

/-- An opcode, 0 to 31 (R52); also the tag of a message bundle (R65). -/
abbrev Opcode := BitVec 5

/-- An 11-bit CAN identifier (R52). -/
abbrev Ident := BitVec 11

/-- The length field of a frame, 0 to 15 (R50). -/
abbrev Len := BitVec 4

/-- The `sig` operand of the `WAIT.*` operations, 0 to 31 (R63). -/
abbrev SigNum := BitVec 5

/-- A 32-bit pattern: the `i32` field `value` (R33), read as a number by `BitVec.toInt`. -/
abbrev Word32 := BitVec 32

end Sys2Proof
end

