-- ==== Sys2Proof/Syntax.lean ====
section
/-! DEFINITION. The operations of the block: one constructor per row of spec/opcode_table.json, with the operands of
30_encoding.md R62; the messages of R56; and the form in which the host issues an operation. -/

namespace Sys2Proof

/-- The payload buffer of a frame: eight byte lanes, offset 0 first (R19, R30). The first `len` are the payload
(R39). -/
structure Payload where
  b0 : Byte
  b1 : Byte
  b2 : Byte
  b3 : Byte
  b4 : Byte
  b5 : Byte
  b6 : Byte
  b7 : Byte
deriving DecidableEq, Repr

/-- The five fields of a Heartbeat, in payload order (R56, R58). -/
structure Heartbeat where
  deviceType : Byte
  ioDir : Byte
  ioState : Byte
  errors : Byte
  counter : Byte
deriving DecidableEq, Repr

/-- A message: the closed sum of six variants (R56, R65). -/
inductive Message where
  | halt (ioState : Byte)
  | heartbeat (h : Heartbeat)
  | ioState (ioState : Byte)
  | setIoState (ioState : Byte)
  | setParameter (paramId : Byte) (value : Word32)
  | getParameter (paramId : Byte)
deriving DecidableEq, Repr

/-- The message bundle of the ports (R65): a tag and one lane per field. -/
structure Bundle where
  tag : Opcode
  ioState : Byte
  deviceType : Byte
  ioDir : Byte
  errors : Byte
  counter : Byte
  paramId : Byte
  value : Word32
deriving DecidableEq, Repr

/-- The operations, one constructor per row of spec/opcode_table.json.

The rows of the space "frame identifier" are the sub-operations that the message tag (for `ENC`) or `id[4:0]` (for
`DEC`) selects (R62). An `enc…` row carries the node and the fields it writes; a `dec…` row carries `id[10:5]`, `len`
and the payload lanes, its `id[4:0]` being fixed by the row. -/
inductive Instr where
  -- the framer, transmit direction (41_encode.md)
  | encHalt (node : NodeId) (ioState : Byte)
  | encHeartbeat (node : NodeId) (deviceType ioDir ioState errors counter : Byte)
  | encIostate (node : NodeId) (ioState : Byte)
  | encSetiostate (node : NodeId) (ioState : Byte)
  | encSetparam (node : NodeId) (paramId : Byte) (value : Word32)
  | encGetparam (node : NodeId) (paramId : Byte)
  -- the framer, receive direction (42_decode.md)
  | decHalt (node : NodeId) (len : Len) (data : Payload)
  | decHeartbeat (node : NodeId) (len : Len) (data : Payload)
  | decIostate (node : NodeId) (len : Len) (data : Payload)
  | decSetiostate (node : NodeId) (len : Len) (data : Payload)
  | decSetparam (node : NodeId) (len : Len) (data : Payload)
  | decGetparam (node : NodeId) (len : Len) (data : Payload)
  -- identifiers whose opcode names no variant (R92); `x` holds the opcode bits the row leaves free
  | unassigned6to7 (node : NodeId) (x : BitVec 1) (len : Len) (data : Payload)
  | unassigned8to15 (node : NodeId) (x : BitVec 3) (len : Len) (data : Payload)
  | unassigned16to31 (node : NodeId) (x : BitVec 4) (len : Len) (data : Payload)
  -- the operation codes, in the order of `cmd` (R62)
  | reset
  | rx (id : Ident) (rtr : Bool) (len : Len) (data : Payload) (now : Nat)
  | setout (value : Byte) (now : Nat)
  | chkalive (now : Nat)
  | waitEnter (sig : SigNum)
  | waitObserve (sig : SigNum)
  | waitAbandon (sig : SigNum)
  | rdIostate
  | rdPin (n : BitVec 3)
  | rdHb
  | rdNodeid
  | genid (node : NodeId) (op : Opcode)
  | splitid (id : Ident)
  | enc (node : NodeId) (msg : Bundle)
  | dec (id : Ident) (len : Len) (data : Payload)
  | reservedCmd
deriving DecidableEq, Repr

/-- The three ports an operation may be issued on. `cmd` carries an operation code; `tx` and `rx` carry a row of the
table's other space, an identifier with its payload, to be framed or to be decoded. DESIGN CHOICE (log 2). -/
inductive Port where
  | cmd
  | tx
  | rx
deriving DecidableEq, Repr

/-- One issued operation: the port and the byte lanes on it, lane 0 first. DESIGN CHOICE (log 2). -/
structure Issue where
  port : Port
  lanes : List Byte
deriving DecidableEq, Repr

/-- Why an issued operation is not one of the block's. Each is a refusal (R72, R153), so safe. -/
inductive DecodeError where
  /-- A lane that the operation needs is not there. -/
  | missingLane
  /-- The operation code is wider than `cmd[3:0]`. -/
  | wideCmd
  /-- A node number above 63 (R72). -/
  | wideNode
  /-- An opcode above 31 (R72), or a message tag above 31. -/
  | wideOpcode
  /-- An identifier above 0x7FF (R61, R72). -/
  | wideIdent
  /-- A remote-request bit that is neither 0 nor 1. -/
  | wideRtr
  /-- A length above 15. -/
  | wideLen
  /-- A signal number above 31. -/
  | wideSig
  /-- A pin number above 7. -/
  | widePin
deriving DecidableEq, Repr

end Sys2Proof
end

