-- ==== Sys2Proof/Decode.lean ====
section
/-! DEFINITION. From the byte lanes of an issued operation to an `Instr`, and back.

What the spec fixes: the code in `cmd[3:0]` (30_encoding.md R62), the identifier `[node:6][opcode:5]` (R52), the widths
of the operands, little-endian multi-byte fields (20_memory.md R31). In which lane an operand lies is DESIGN CHOICE
(log 2): operands follow the code in the order of R62, one lane per field of at most 8 bits, two for an identifier, eight
for a payload, four for `value`; `now` is every lane that is left. A value wider than its operand is refused by name
(R72); lanes an operation does not use are ignored. -/

namespace Sys2Proof

/-! ## Identifiers -/

/-- `node_id` of an identifier, `id[10:5]` (R52). -/
def Ident.node (id : Ident) : NodeId := id.extractLsb' 5 6

/-- `opcode` of an identifier, `id[4:0]` (R52). -/
def Ident.opcode (id : Ident) : Opcode := id.extractLsb' 0 5

/-- The identifier `{node, opcode}` (R52, R60). -/
def Ident.mk (node : NodeId) (op : Opcode) : Ident := node ++ op

/-! ## Lanes -/

/-- Lane `k`. -/
def lane (ls : List Byte) (k : Nat) : Except DecodeError Byte :=
  match ls[k]? with
  | some b => .ok b
  | none => .error .missingLane

/-- A value that must fit `w` bits. -/
def narrow (w : Nat) (e : DecodeError) (v : Nat) : Except DecodeError (BitVec w) :=
  if v < 2 ^ w then .ok (BitVec.ofNat w v) else .error e

/-- Lane `k` as a field of `w` bits. -/
def field (w : Nat) (e : DecodeError) (ls : List Byte) (k : Nat) : Except DecodeError (BitVec w) := do
  let b ← lane ls k
  narrow w e b.toNat

/-- Lanes `k` and `k + 1` as an identifier, the low byte first. -/
def identField (ls : List Byte) (k : Nat) : Except DecodeError Ident := do
  let lo ← lane ls k
  let hi ← lane ls (k + 1)
  narrow 11 .wideIdent (hi ++ lo).toNat

/-- Lanes `k` to `k + 3` as a 32-bit pattern, little-endian (R31). -/
def word32Field (ls : List Byte) (k : Nat) : Except DecodeError Word32 := do
  let b0 ← lane ls k
  let b1 ← lane ls (k + 1)
  let b2 ← lane ls (k + 2)
  let b3 ← lane ls (k + 3)
  .ok (b3 ++ b2 ++ b1 ++ b0)

/-- Lanes `k` to `k + 7` as the payload lanes. -/
def payloadField (ls : List Byte) (k : Nat) : Except DecodeError Payload := do
  let b0 ← lane ls k
  let b1 ← lane ls (k + 1)
  let b2 ← lane ls (k + 2)
  let b3 ← lane ls (k + 3)
  let b4 ← lane ls (k + 4)
  let b5 ← lane ls (k + 5)
  let b6 ← lane ls (k + 6)
  let b7 ← lane ls (k + 7)
  .ok ⟨b0, b1, b2, b3, b4, b5, b6, b7⟩

/-- One lane as the remote-request bit. -/
def rtrField (ls : List Byte) (k : Nat) : Except DecodeError Bool := do
  let b ← field 1 .wideRtr ls k
  .ok (b == 1#1)

/-- Lanes as one natural, the first the least significant. -/
def natOfLanes : List Byte → Nat
  | [] => 0
  | b :: bs => b.toNat + 256 * natOfLanes bs

/-- Every lane from `k` on as the natural `now`. -/
def nowField (ls : List Byte) (k : Nat) : Nat := natOfLanes (ls.drop k)

/-- The bundle's lanes (R65) in its order, from lane `k`. -/
def bundleField (ls : List Byte) (k : Nat) : Except DecodeError Bundle := do
  let tag ← field 5 .wideOpcode ls k
  let ioState ← lane ls (k + 1)
  let deviceType ← lane ls (k + 2)
  let ioDir ← lane ls (k + 3)
  let errors ← lane ls (k + 4)
  let counter ← lane ls (k + 5)
  let paramId ← lane ls (k + 6)
  let value ← word32Field ls (k + 7)
  .ok { tag, ioState, deviceType, ioDir, errors, counter, paramId, value }

/-! ## The decoder -/

/-- The operation of a code, with the operands in its lanes (R62). -/
def cmdRow (cmd : BitVec 4) (ls : List Byte) : Except DecodeError Instr :=
  match cmd.toNat with
  | 0x0 => .ok .reset
  | 0x1 => do
    let id ← identField ls 1
    let rtr ← rtrField ls 3
    let len ← field 4 .wideLen ls 4
    let data ← payloadField ls 5
    .ok (.rx id rtr len data (nowField ls 13))
  | 0x2 => do
    let value ← lane ls 1
    .ok (.setout value (nowField ls 2))
  | 0x3 => .ok (.chkalive (nowField ls 1))
  | 0x4 => do
    let sig ← field 5 .wideSig ls 1
    .ok (.waitEnter sig)
  | 0x5 => do
    let sig ← field 5 .wideSig ls 1
    .ok (.waitObserve sig)
  | 0x6 => do
    let sig ← field 5 .wideSig ls 1
    .ok (.waitAbandon sig)
  | 0x7 => .ok .rdIostate
  | 0x8 => do
    let n ← field 3 .widePin ls 1
    .ok (.rdPin n)
  | 0x9 => .ok .rdHb
  | 0xA => .ok .rdNodeid
  | 0xB => do
    let node ← field 6 .wideNode ls 1
    let op ← field 5 .wideOpcode ls 2
    .ok (.genid node op)
  | 0xC => do
    let id ← identField ls 1
    .ok (.splitid id)
  | 0xD => do
    let node ← field 6 .wideNode ls 1
    let msg ← bundleField ls 2
    .ok (.enc node msg)
  | 0xE => do
    let id ← identField ls 1
    let len ← field 4 .wideLen ls 3
    let data ← payloadField ls 4
    .ok (.dec id len data)
  | _ => .ok .reservedCmd

/-- The port of operation codes: `cmd` in lane 0 (R62). -/
def decodeCmd (ls : List Byte) : Except DecodeError Instr := do
  let cmd ← field 4 .wideCmd ls 0
  cmdRow cmd ls

/-- The row of the transmit direction that an opcode selects, with the fields of its variant from lane 2 on, at the
offsets of R56. An opcode above 5 is a bundle whose tag names no variant (R87). -/
def txRow (node : NodeId) (op : Opcode) (ls : List Byte) : Except DecodeError Instr :=
  match op.toNat with
  | 0 => do
    let v ← lane ls 2
    .ok (.encHalt node v)
  | 1 => do
    let deviceType ← lane ls 2
    let ioDir ← lane ls 3
    let ioState ← lane ls 4
    let errors ← lane ls 5
    let counter ← lane ls 6
    .ok (.encHeartbeat node deviceType ioDir ioState errors counter)
  | 2 => do
    let v ← lane ls 2
    .ok (.encIostate node v)
  | 3 => do
    let v ← lane ls 2
    .ok (.encSetiostate node v)
  | 4 => do
    let paramId ← lane ls 2
    let value ← word32Field ls 3
    .ok (.encSetparam node paramId value)
  | 5 => do
    let v ← lane ls 2
    .ok (.encGetparam node v)
  | _ => .ok (.enc node ⟨op, 0, 0, 0, 0, 0, 0, 0⟩)

/-- The transmit port: an identifier in lanes 0 and 1, then the fields. -/
def decodeTx (ls : List Byte) : Except DecodeError Instr := do
  let id ← identField ls 0
  txRow (Ident.node id) (Ident.opcode id) ls

/-- The row of the receive direction that an opcode selects; 6 to 31 are the three unassigned rows (R54, R92). -/
def rxRow (node : NodeId) (op : Opcode) (len : Len) (data : Payload) : Instr :=
  match op.toNat with
  | 0 => .decHalt node len data
  | 1 => .decHeartbeat node len data
  | 2 => .decIostate node len data
  | 3 => .decSetiostate node len data
  | 4 => .decSetparam node len data
  | 5 => .decGetparam node len data
  | v =>
    if v < 8 then .unassigned6to7 node (op.extractLsb' 0 1) len data
    else if v < 16 then .unassigned8to15 node (op.extractLsb' 0 3) len data
    else .unassigned16to31 node (op.extractLsb' 0 4) len data

/-- The receive port: an identifier in lanes 0 and 1, `len` in lane 2, the payload lanes from lane 3. -/
def decodeRx (ls : List Byte) : Except DecodeError Instr := do
  let id ← identField ls 0
  let len ← field 4 .wideLen ls 2
  let data ← payloadField ls 3
  .ok (rxRow (Ident.node id) (Ident.opcode id) len data)

/-- The operation an issue stands for. Total: every list of lanes on every port has one answer. -/
def decode (i : Issue) : Except DecodeError Instr :=
  match i.port with
  | .cmd => decodeCmd i.lanes
  | .tx => decodeTx i.lanes
  | .rx => decodeRx i.lanes

/-! ## The encoder -/

/-- A field of at most 8 bits in a lane of its own. -/
def fieldLane {w : Nat} (v : BitVec w) : Byte := v.setWidth 8

/-- An identifier in two lanes, the low byte first. -/
def identLanes (id : Ident) : List Byte := [id.extractLsb' 0 8, fieldLane (id.extractLsb' 8 3)]

/-- A 32-bit pattern in four lanes, little-endian (R31). -/
def word32Lanes (v : Word32) : List Byte :=
  [v.extractLsb' 0 8, v.extractLsb' 8 8, v.extractLsb' 16 8, v.extractLsb' 24 8]

/-- The payload lanes, offset 0 first. -/
def payloadLanes (p : Payload) : List Byte := [p.b0, p.b1, p.b2, p.b3, p.b4, p.b5, p.b6, p.b7]

/-- The low lanes of a natural, `fuel` bounding their number. -/
def lanesOfNatFuel : Nat → Nat → List Byte
  | 0, _ => []
  | fuel + 1, n => if n = 0 then [] else BitVec.ofNat 8 n :: lanesOfNatFuel fuel (n / 256)

/-- A natural in as many lanes as it needs, the least significant first. -/
def lanesOfNat (n : Nat) : List Byte := lanesOfNatFuel n n

/-- The bundle's lanes (R65), in its order. -/
def bundleLanes (m : Bundle) : List Byte :=
  [fieldLane m.tag, m.ioState, m.deviceType, m.ioDir, m.errors, m.counter, m.paramId] ++ word32Lanes m.value

/-- An operation code (R62) and its operand lanes, on the port of operation codes. -/
def cmdIssue (cmd : BitVec 4) (operands : List Byte) : Issue := ⟨.cmd, fieldLane cmd :: operands⟩

/-- A row of the transmit direction: its identifier and its field lanes. -/
def txIssue (node : NodeId) (op : Opcode) (fields : List Byte) : Issue := ⟨.tx, identLanes (Ident.mk node op) ++ fields⟩

/-- A row of the receive direction: its identifier, `len` and the payload lanes. -/
def rxIssue (node : NodeId) (op : Opcode) (len : Len) (data : Payload) : Issue :=
  ⟨.rx, identLanes (Ident.mk node op) ++ fieldLane len :: payloadLanes data⟩

/-- The issue of an operation: the words of 30_encoding.md R52, R56 and R62. -/
def encode : Instr → Issue
  | .encHalt node v => txIssue node 0#5 [v]
  | .encHeartbeat node deviceType ioDir ioState errors counter => txIssue node 1#5 [deviceType, ioDir, ioState, errors, counter]
  | .encIostate node v => txIssue node 2#5 [v]
  | .encSetiostate node v => txIssue node 3#5 [v]
  | .encSetparam node paramId value => txIssue node 4#5 (paramId :: word32Lanes value)
  | .encGetparam node v => txIssue node 5#5 [v]
  | .decHalt node len data => rxIssue node 0#5 len data
  | .decHeartbeat node len data => rxIssue node 1#5 len data
  | .decIostate node len data => rxIssue node 2#5 len data
  | .decSetiostate node len data => rxIssue node 3#5 len data
  | .decSetparam node len data => rxIssue node 4#5 len data
  | .decGetparam node len data => rxIssue node 5#5 len data
  | .unassigned6to7 node x len data => rxIssue node (0b0011#4 ++ x) len data
  | .unassigned8to15 node x len data => rxIssue node (0b01#2 ++ x) len data
  | .unassigned16to31 node x len data => rxIssue node (0b1#1 ++ x) len data
  | .reset => cmdIssue 0x0#4 []
  | .rx id rtr len data now =>
      cmdIssue 0x1#4 (identLanes id ++ (fieldLane (BitVec.ofBool rtr) :: fieldLane len :: payloadLanes data) ++ lanesOfNat now)
  | .setout value now => cmdIssue 0x2#4 (value :: lanesOfNat now)
  | .chkalive now => cmdIssue 0x3#4 (lanesOfNat now)
  | .waitEnter sig => cmdIssue 0x4#4 [fieldLane sig]
  | .waitObserve sig => cmdIssue 0x5#4 [fieldLane sig]
  | .waitAbandon sig => cmdIssue 0x6#4 [fieldLane sig]
  | .rdIostate => cmdIssue 0x7#4 []
  | .rdPin n => cmdIssue 0x8#4 [fieldLane n]
  | .rdHb => cmdIssue 0x9#4 []
  | .rdNodeid => cmdIssue 0xA#4 []
  | .genid node op => cmdIssue 0xB#4 [fieldLane node, fieldLane op]
  | .splitid id => cmdIssue 0xC#4 (identLanes id)
  | .enc node msg => cmdIssue 0xD#4 (fieldLane node :: bundleLanes msg)
  | .dec id len data => cmdIssue 0xE#4 (identLanes id ++ fieldLane len :: payloadLanes data)
  | .reservedCmd => cmdIssue 0xF#4 []

/-! ## Words of the opcode table -/

/-- The lanes that the word `w` fills, and zero lanes after them, up to the longest fixed part of an operation (13 lanes
of `RX`) and then some. -/
def wordLanes (w : Nat) : List Byte := [BitVec.ofNat 8 w, BitVec.ofNat 8 (w / 256)] ++ List.replicate 22 0

/-- A word of spec/opcode_table.json as an issue. A word of one byte that fits `cmd[3:0]` is an operation code; any other
is a frame identifier, taken in the receive direction (`ENC.X` and `DEC.X` have the same words; log 3). -/
def tableIssue (nbits w : Nat) : Issue :=
  if nbits ≤ 8 ∧ w < 16 then ⟨.cmd, wordLanes w⟩ else ⟨.rx, wordLanes w⟩

/-- The operation this decoder reads from a word of spec/opcode_table.json, every operand bit above it being 0. -/
def decodeTableWord (nbits w : Nat) : Option Instr :=
  match decode (tableIssue nbits w) with
  | .ok i => some i
  | .error _ => none

end Sys2Proof
end

