-- ==== Sys2Proof/Config.lean ====
section
/-! DEFINITION. The construction parameters (00_scope.md R5): constants of an instance, arguments of the model. -/

namespace Sys2Proof

/-- The construction parameters of one instance (R5, R18). A width that is `none` is unbounded ("a model may use
unbounded naturals"). No operation writes one; log 5. -/
structure Config where
  /-- `NODE_ID`, the node this session monitors and addresses. -/
  nodeId : NodeId
  /-- `ALIVE_TICKS`, the liveness threshold in ticks. -/
  aliveTicks : Nat
  /-- `TICK_HZ`, ticks per second of `now`; no operation reads it. -/
  tickHz : Nat
  /-- `TIME_W`, the width of `now` and `hb_time`. -/
  timeW : Option Nat
  /-- `IO_RESET`, the reset value of `io_state` and `prev_state`. -/
  ioReset : Byte
  /-- `WAITER_W`, the width of each waiter counter. -/
  waiterW : Option Nat
deriving DecidableEq, Repr

/-- The default of `ALIVE_TICKS`: the ticks in 0.5 s (R5, R168). -/
def Config.defaultAliveTicks (tickHz : Nat) : Nat := tickHz / 2

/-- The configuration of D29, the one `State.reset` takes. DESIGN CHOICE, unsafe (log 5): the spec gives
`NODE_ID` and `TICK_HZ` no default. -/
def Config.d29 : Config where
  nodeId := 1
  aliveTicks := Config.defaultAliveTicks 1000
  tickHz := 1000
  timeW := none
  ioReset := 0x00
  waiterW := none

end Sys2Proof
end

