-- ==== Sys2Proof/Machine/State.lean ====
section
/-! DEFINITION. The state of one instance of the block (10_state.md), its interface to the host, and the ways a step can
stop. -/

namespace Sys2Proof.Machine

/-! ## The block's own state -/

/-- One auto-clearing signal (R16): whether it is set, and how many tasks wait on it. -/
structure Cell where
  flag : Bool
  waiters : Nat
deriving DecidableEq, Repr

/-- The name of a signal (R16, R63). -/
inductive Signal where
  | rise (n : Fin 8)
  | fall (n : Fin 8)
  | change (n : Fin 8)
  | alive
deriving DecidableEq, Repr

/-- One thing for each of the 25 signals (R16). -/
structure Bank (α : Type) where
  rise : Vector α 8
  fall : Vector α 8
  change : Vector α 8
  alive : α
deriving DecidableEq, Repr

/-- The last Heartbeat: the registers `hb[0..4]` (R13) and `hb_time` (R15). -/
structure HbRecord where
  fields : Heartbeat
  time : Nat
deriving DecidableEq, Repr

/-- The session registers (10_state.md section 1). -/
structure Session where
  /-- `io_state` (R10). -/
  ioState : Byte
  /-- `prev_state` (R11). -/
  prevState : Byte
  /-- `hb[0..4]` and `hb_time`; the record is there exactly when `hb_valid` = 1, for they "hold no value" before (R14;
  log 6). -/
  lastHb : Option HbRecord
  /-- The 25 signal cells (R16). -/
  cells : Bank Cell
deriving DecidableEq, Repr

/-- `hb_valid` (R14). -/
def Session.hbValid (b : Session) : Bool := b.lastHb.isSome

/-! ## Results -/

/-- The statuses (30_encoding.md R64). -/
inductive Status where
  | ok
  | dropNode
  | dropRtr
  | unknownOpcode
  | lengthMismatch
  | unknownMessageType
  | noHeartbeat
  | heartbeatTimeout
  | cancelled
  | pending
deriving DecidableEq, Repr

/-- A frame to transmit (R50). -/
structure Frame where
  id : Ident
  rtr : Bool
  len : Len
  data : Payload
deriving DecidableEq, Repr

/-- The results of an operation (R62). Only what an outcome makes valid is in it (R152): an error carries its status and
nothing else. The constructors `message` and `frame` carry status `OK`. -/
inductive Result where
  /-- No result: `RESET`, `WAIT.ENTER`, `WAIT.ABANDON`, and a step that runs no operation. -/
  | none
  /-- A status alone. -/
  | status (st : Status)
  /-- `OK` and a decoded message: `RX`, `DEC`. -/
  | message (m : Message)
  /-- `OK` and a frame: `ENC`, `SETOUT`. -/
  | frame (f : Frame)
  /-- `RD.IOSTATE`. -/
  | ioState (v : Byte)
  /-- `RD.PIN`. -/
  | pin (level prev : Bool)
  /-- `RD.HB`: the last Heartbeat, or absent. -/
  | lastHeartbeat (h : Option Heartbeat)
  /-- `RD.NODEID`. -/
  | nodeId (node : NodeId)
  /-- `GENID`. -/
  | ident (id : Ident)
  /-- `SPLITID`. -/
  | split (node : NodeId) (op : Opcode)
deriving DecidableEq, Repr

/-- The event pulses of a step (44_pin_signals.md R123). -/
structure Events where
  change : Byte
  rise : Byte
  fall : Byte
  alive : Bool
deriving DecidableEq, Repr

/-- No pulse. -/
def Events.none : Events := ⟨0, 0, 0, false⟩

/-- What the step shows the host: its results and its pulses. -/
structure Output where
  result : Result
  events : Events
deriving DecidableEq, Repr

/-! ## The machine -/

/-- One instance and its interface. `block` is the block's state and all of it. `cfg` holds the construction parameters,
which no step changes (log 5). `lastNow` is the `now` of the last step of the session that carried one, by which a
decreasing `now` is known (60_exceptions.md R153, R168; log 8). `cancelledWaits` are the waits of each cell that `RESET`
ended with outcome `CANCELLED`, the host's to tell its tasks (70_reset_and_hazards.md R181; log 11); no operation answers
it. `pending` are the operations the host has issued and the block has not yet taken (log 1); `out` is what the last step
showed (log 4). All but `block` are no state of the block (R20). -/
structure State where
  cfg : Config
  block : Session
  lastNow : Option Nat
  cancelledWaits : Bank Nat
  pending : List Issue
  out : Output
deriving DecidableEq, Repr

/-- Why a step can stop with a fault. The block itself has no such fault (R164: "There is no state in which the block is
stopped by errors"). -/
inductive Fault where
  /-- A payload read at or beyond `len` (R35, R39: those bytes "are not part of a frame"). Raised by `reportDecoded` and
  the dispatch of `RX` if a variant's read were outside its payload; the length check comes first (R91), so no step
  raises it. Safe. -/
  | payloadRead
deriving DecidableEq, Repr

/-- Why a step can have no meaning: the refusals of 60_exceptions.md R153. Each is safe: the model stops, and says nothing
about the run that goes on. -/
inductive Refusal where
  /-- An instruction whose meaning is not modelled; no arm answers with it. Safe. -/
  | notModelled (mnemonic : String)
  /-- The issued lanes are no operation of the block, or a value is wider than its operand (R72). Raised by `step`. Safe. -/
  | malformed (e : DecodeError)
  /-- `cmd` = 0xF (R62, R153). Raised by the reserved row. Safe. -/
  | reservedCommand
  /-- `sig` 25 to 31 (R63, R153). Raised by `WAIT.*`. Safe. -/
  | reservedSignal
  /-- `WAIT.ENTER` on a full counter (R125, R134). Safe. -/
  | counterFull
  /-- `WAIT.OBSERVE` or `WAIT.ABANDON` on a cell with no waiter (R126, R127). Safe. -/
  | noWaiter
  /-- `now` below `hb_time` or below the `now` of an earlier step of the session (R140, R153, R168; log 8). Raised by `RX`,
  `CHKALIVE`, `SETOUT`. Safe. -/
  | timeBackwards
  /-- `now` wider than a finite `TIME_W` (R168; log 9). Raised by `RX`, `CHKALIVE`, `SETOUT`. Safe. -/
  | timeTooWide
deriving DecidableEq, Repr

/-! ## Reset values -/

/-- The same value for each of the 25 signals. -/
def Bank.all {α : Type} (v : α) : Bank α :=
  ⟨Vector.replicate 8 v, Vector.replicate 8 v, Vector.replicate 8 v, v⟩

/-- A signal that is not set and on which nobody waits. -/
def Cell.clear : Cell := ⟨false, 0⟩

/-- The session registers after `RESET` (R23, R180). -/
def Session.initial (ioReset : Byte) : Session where
  ioState := ioReset
  prevState := ioReset
  lastHb := Option.none
  cells := Bank.all Cell.clear

/-- Nothing to show: no result, no pulse. -/
def Output.idle : Output := ⟨.none, Events.none⟩

/-- The machine right after reset (R23), constructed with the parameters of D29 (log 5); nothing has been issued. -/
def State.reset : State where
  cfg := Config.d29
  block := Session.initial Config.d29.ioReset
  lastNow := Option.none
  cancelledWaits := Bank.all 0
  pending := []
  out := Output.idle

end Sys2Proof.Machine
end

