-- ==== Sys2Proof/Machine/Flags.lean ====
section
/-! DEFINITION. The flag computations: the status codes, the edge detector's three bit masks, and what each operation does
to the flag and the count of one signal cell. -/

namespace Sys2Proof.Machine

/-- The 4-bit code of a status (30_encoding.md R64). -/
def Status.code : Status → BitVec 4
  | .ok => 0
  | .dropNode => 1
  | .dropRtr => 2
  | .unknownOpcode => 3
  | .lengthMismatch => 4
  | .unknownMessageType => 5
  | .noHeartbeat => 6
  | .heartbeatTimeout => 7
  | .cancelled => 8
  | .pending => 9

/-- The status of a result, where it has one (R62). -/
def Result.status? : Result → Option Status
  | .none => Option.none
  | .status st => some st
  | .message _ => some .ok
  | .frame _ => some .ok
  | .ioState _ => Option.none
  | .pin _ _ => Option.none
  | .lastHeartbeat _ => Option.none
  | .nodeId _ => Option.none
  | .ident _ => Option.none
  | .split _ _ => Option.none

/-- The pins that changed (44_pin_signals.md R120). -/
def changedPins (old new : Byte) : Byte := old ^^^ new

/-- The pins that went from 0 to 1 (R120). -/
def risenPins (old new : Byte) : Byte := ~~~old &&& new

/-- The pins that went from 1 to 0 (R120). -/
def fallenPins (old new : Byte) : Byte := old &&& ~~~new

/-- The pulses of a pin update (R120, R123). -/
def edgeEvents (old new : Byte) : Events :=
  ⟨changedPins old new, risenPins old new, fallenPins old new, false⟩

/-- `Raise` (R124): a signal is latched only if somebody waits on it. -/
def Cell.raise (c : Cell) : Cell :=
  if c.waiters > 0 then { c with flag := true } else c

/-- One more waiter; the flag stays (R125). -/
def Cell.enter (c : Cell) : Cell := { c with waiters := c.waiters + 1 }

/-- One waiter fewer, and the last one clears the flag (R126, R127). -/
def Cell.leave (c : Cell) : Cell :=
  if c.waiters - 1 = 0 then ⟨false, 0⟩ else { c with waiters := c.waiters - 1 }

/-- Whether the waiter counter is at its greatest value `2^WAITER_W - 1` (R125, R134). -/
def Cell.full (waiterW : Option Nat) (c : Cell) : Bool :=
  match waiterW with
  | Option.none => false
  | some w => 2 ^ w - 1 ≤ c.waiters

end Sys2Proof.Machine
end

