-- ==== Sys2Proof/Machine/Operands.lean ====
section
/-! DEFINITION. The operand forms: the signal an operand names (R63), the message a bundle carries and the bundle of a
message (R65), the access to one of the 25 cells, and the payload primitives `MemRead` and `MemWrite` (R35, R36). -/

namespace Sys2Proof.Machine

/-! ## Signals -/

/-- The cell that `sig` names; none for the reserved numbers 25 to 31 (30_encoding.md R63). -/
def signalOf (sig : SigNum) : Option Signal :=
  if h : sig.toNat < 8 then some (.rise ⟨sig.toNat, h⟩)
  else if h : sig.toNat - 8 < 8 then some (.fall ⟨sig.toNat - 8, h⟩)
  else if h : sig.toNat - 16 < 8 then some (.change ⟨sig.toNat - 16, h⟩)
  else if sig.toNat = 24 then some .alive
  else none

/-- What a bank holds for a signal. -/
def Bank.get {α : Type} (b : Bank α) : Signal → α
  | .rise n => b.rise[n]
  | .fall n => b.fall[n]
  | .change n => b.change[n]
  | .alive => b.alive

/-- The bank with one signal's entry replaced. -/
def Bank.set {α : Type} (b : Bank α) (sig : Signal) (v : α) : Bank α :=
  match sig with
  | .rise n => { b with rise := b.rise.set n v }
  | .fall n => { b with fall := b.fall.set n v }
  | .change n => { b with change := b.change.set n v }
  | .alive => { b with alive := v }

/-- A function applied to each of eight pairs of entries, written out so that it evaluates. -/
def zipEight {α β γ : Type} (f : α → β → γ) (v : Vector α 8) (w : Vector β 8) : Vector γ 8 :=
  #v[f v[0] w[0], f v[1] w[1], f v[2] w[2], f v[3] w[3], f v[4] w[4], f v[5] w[5], f v[6] w[6], f v[7] w[7]]

/-- Two banks put together, signal by signal. -/
def Bank.zip {α β γ : Type} (f : α → β → γ) (a : Bank α) (b : Bank β) : Bank γ :=
  ⟨zipEight f a.rise b.rise, zipEight f a.fall b.fall, zipEight f a.change b.change, f a.alive b.alive⟩

/-! ## Messages on the ports -/

/-- The message a bundle carries: the lanes valid for its tag; none for the tags 6 to 31 (R65, R87). -/
def messageOf (m : Bundle) : Option Message :=
  match m.tag.toNat with
  | 0 => some (.halt m.ioState)
  | 1 => some (.heartbeat ⟨m.deviceType, m.ioDir, m.ioState, m.errors, m.counter⟩)
  | 2 => some (.ioState m.ioState)
  | 3 => some (.setIoState m.ioState)
  | 4 => some (.setParameter m.paramId m.value)
  | 5 => some (.getParameter m.paramId)
  | _ => none

/-- A message as an output bundle: the lanes not valid for its tag are 0 (R65). -/
def bundleOf : Message → Bundle
  | .halt v => ⟨0, v, 0, 0, 0, 0, 0, 0⟩
  | .heartbeat h => ⟨1, h.ioState, h.deviceType, h.ioDir, h.errors, h.counter, 0, 0⟩
  | .ioState v => ⟨2, v, 0, 0, 0, 0, 0, 0⟩
  | .setIoState v => ⟨3, v, 0, 0, 0, 0, 0, 0⟩
  | .setParameter paramId value => ⟨4, 0, 0, 0, 0, 0, paramId, value⟩
  | .getParameter paramId => ⟨5, 0, 0, 0, 0, 0, paramId, 0⟩

/-! ## The payload -/

/-- The payload with every lane 0, the lanes a transmit payload starts from (R39). -/
def Payload.zero : Payload := ⟨0, 0, 0, 0, 0, 0, 0, 0⟩

/-- The byte at an offset; an offset is 3 bits wide (R30). -/
def Payload.byte (p : Payload) : Nat → Byte
  | 0 => p.b0
  | 1 => p.b1
  | 2 => p.b2
  | 3 => p.b3
  | 4 => p.b4
  | 5 => p.b5
  | 6 => p.b6
  | _ => p.b7

/-- The payload with the byte at an offset replaced. -/
def Payload.setByte (p : Payload) (off : Nat) (v : Byte) : Payload :=
  match off with
  | 0 => { p with b0 := v }
  | 1 => { p with b1 := v }
  | 2 => { p with b2 := v }
  | 3 => { p with b3 := v }
  | 4 => { p with b4 := v }
  | 5 => { p with b5 := v }
  | 6 => { p with b6 := v }
  | _ => { p with b7 := v }

/-- `MemRead(off, 1)` of a payload of `len` bytes (20_memory.md R35); none where its precondition fails, or beyond the
eight lanes of the buffer. -/
def memRead8 (len : Nat) (p : Payload) (off : Nat) : Option Byte :=
  if off + 1 ≤ len ∧ off + 1 ≤ 8 then some (Payload.byte p off) else none

/-- `MemRead(off, 4)`, little-endian (R35). -/
def memRead32 (len : Nat) (p : Payload) (off : Nat) : Option Word32 :=
  if off + 4 ≤ len ∧ off + 4 ≤ 8 then
    some (Payload.byte p (off + 3) ++ Payload.byte p (off + 2) ++ Payload.byte p (off + 1) ++ Payload.byte p off)
  else none

/-- `MemWrite(off, 1, v)` (R36). -/
def memWrite8 (p : Payload) (off : Nat) (v : Byte) : Payload := Payload.setByte p off v

/-- `MemWrite(off, 4, v)`, little-endian (R36). -/
def memWrite32 (p : Payload) (off : Nat) (v : Word32) : Payload :=
  Payload.setByte
    (Payload.setByte
      (Payload.setByte (Payload.setByte p off (v.extractLsb' 0 8)) (off + 1) (v.extractLsb' 8 8))
      (off + 2) (v.extractLsb' 16 8))
    (off + 3) (v.extractLsb' 24 8)

end Sys2Proof.Machine
end

