-- ==== Sys2Proof/Machine/Ops.lean ====
section
/-! DEFINITION. The shared operations: fetching, answering, raising an error, the identifier and message codec, the pin
update and the raises, the liveness check. Every meaning is a few lines over these. -/

namespace Sys2Proof.Machine

/-! ## Taking an operation, and answering it -/

/-- The next operation the host has issued, and those after it (R17). -/
def nextIssue (s : State) : Option (Issue × List Issue) :=
  match s.pending with
  | [] => none
  | i :: rest => some (i, rest)

/-- The operation is done: these are its results, and it pulsed nothing. -/
def answer (s : State) (r : Result) : State := { s with out := ⟨r, Events.none⟩ }

/-- `raise E` (60_exceptions.md R152), the one way an error is taken: its status is the result, no state is written, and no
other result is given. There is nothing to save and nothing to return from (R163, R164). -/
def raiseError (s : State) (st : Status) : State := answer s (.status st)

/-! ## The identifier codec (40_id_codec.md) -/

/-- `GENID` (R70). -/
def genId (node : NodeId) (op : Opcode) : Ident := (node.setWidth 11 <<< 5) ||| op.setWidth 11

/-- The node half of `SPLITID`: `id >> 5` (R71). -/
def splitNode (id : Ident) : NodeId := (id >>> 5).setWidth 6

/-- The opcode half of `SPLITID`: `id & 0x1F` (R71). -/
def splitOpcode (id : Ident) : Opcode := (id &&& 0x1F#11).setWidth 5

/-! ## The framer (41_encode.md, 42_decode.md) -/

/-- The size of the variant an opcode selects; none for the opcodes 6 to 31 (30_encoding.md R56). -/
def messageSize (op : Opcode) : Option Nat :=
  match op.toNat with
  | 0 => some 1
  | 1 => some 5
  | 2 => some 1
  | 3 => some 1
  | 4 => some 5
  | 5 => some 1
  | _ => none

/-- The frame of a one-byte variant, format `F1` (R57). -/
def frameF1 (node : NodeId) (op : Opcode) (v : Byte) : Frame :=
  { id := genId node op, rtr := false, len := 1, data := memWrite8 Payload.zero 0 v }

/-- The frame of a Heartbeat, format `F5H` (R58, R82). -/
def frameF5H (node : NodeId) (h : Heartbeat) : Frame :=
  { id := genId node 1, rtr := false, len := 5,
    data :=
      memWrite8 (memWrite8 (memWrite8 (memWrite8 (memWrite8 Payload.zero 0 h.deviceType) 1 h.ioDir) 2 h.ioState) 3 h.errors)
        4 h.counter }

/-- The frame of a SetParameter, format `F5P` (R59, R85). -/
def frameF5P (node : NodeId) (paramId : Byte) (value : Word32) : Frame :=
  { id := genId node 4, rtr := false, len := 5, data := memWrite32 (memWrite8 Payload.zero 0 paramId) 1 value }

/-- `ENC` of a message (R80): the rule its variant selects. -/
def frameOf (node : NodeId) : Message → Frame
  | .halt v => frameF1 node 0 v
  | .heartbeat h => frameF5H node h
  | .ioState v => frameF1 node 2 v
  | .setIoState v => frameF1 node 3 v
  | .setParameter paramId value => frameF5P node paramId value
  | .getParameter paramId => frameF1 node 5 paramId

/-- The Heartbeat in a payload (R95). -/
def readHeartbeat (len : Nat) (p : Payload) : Option Heartbeat := do
  let deviceType ← memRead8 len p 0
  let ioDir ← memRead8 len p 1
  let ioState ← memRead8 len p 2
  let errors ← memRead8 len p 3
  let counter ← memRead8 len p 4
  return { deviceType, ioDir, ioState, errors, counter }

/-- The message in a payload of the variant an opcode selects (R94 to R99). -/
def readMessage (op : Opcode) (len : Nat) (p : Payload) : Option Message :=
  match op.toNat with
  | 0 => (memRead8 len p 0).map .halt
  | 1 => (readHeartbeat len p).map .heartbeat
  | 2 => (memRead8 len p 0).map .ioState
  | 3 => (memRead8 len p 0).map .setIoState
  | 4 => do
    let paramId ← memRead8 len p 0
    let value ← memRead32 len p 1
    return .setParameter paramId value
  | 5 => (memRead8 len p 0).map .getParameter
  | _ => none

/-- `DEC` (R90), its checks in the order of R91: an error status, or the message read. The message is none if a read were
outside the payload. -/
def decodeFrame (id : Ident) (len : Len) (data : Payload) : Except Status (Option Message) :=
  match messageSize (splitOpcode id) with
  | none => .error .unknownOpcode
  | some size =>
    if len.toNat ≠ size then .error .lengthMismatch
    else .ok (readMessage (splitOpcode id) len.toNat data)

/-- The results of `DEC` (R90). -/
def reportDecoded (s : State) : Except Status (Option Message) → Host.Outcome State Fault Refusal
  | .error st => .next (raiseError s st)
  | .ok none => .fault .payloadRead
  | .ok (some m) => .next (answer s (.message m))

/-! ## Raises and the pin update (44_pin_signals.md) -/

/-- `Raise` of one cell (R124). -/
def raiseSignal (cells : Bank Cell) (sig : Signal) : Bank Cell := cells.set sig (cells.get sig).raise

/-- The raises of one pin: the any-change signal, then the direction (R120). -/
def raisePin (old new : Byte) (cells : Bank Cell) (n : Fin 8) : Bank Cell :=
  if (changedPins old new).getLsbD n then
    if (risenPins old new).getLsbD n then raiseSignal (raiseSignal cells (.change n)) (.rise n)
    else raiseSignal (raiseSignal cells (.change n)) (.fall n)
  else cells

/-- The raises of all eight pins, pin 0 first (R120, D18). -/
def raisePins (old new : Byte) (cells : Bank Cell) : Bank Cell :=
  [0, 1, 2, 3, 4, 5, 6, 7].foldl (raisePin old new) cells

/-- `PinUpdate` (R120). Its pulses are `edgeEvents` of the levels before and after. -/
def pinUpdate (b : Session) (new : Byte) : Session :=
  { b with prevState := b.ioState, ioState := new, cells := raisePins b.ioState new b.cells }

/-- Heartbeat dispatch (43_intake_dispatch.md R106): record, time, pins, then `alive`. -/
def recordHeartbeat (b : Session) (h : Heartbeat) (now : Nat) : Session :=
  let b' := pinUpdate { b with lastHb := some ⟨h, now⟩ } h.ioState
  { b' with cells := raiseSignal b'.cells .alive }

/-! ## Time and liveness (45_liveness_output.md, 60_exceptions.md R168) -/

/-- Whether the `now` port carries this value (R5, R168): always, unless `TIME_W` is finite and too small. -/
def timeFits (timeW : Option Nat) (now : Nat) : Bool :=
  match timeW with
  | none => true
  | some w => now < 2 ^ w

/-- Whether `now` lies before that of an earlier step of the session, which no host may issue (R153, R168). -/
def beforeLastNow (lastNow : Option Nat) (now : Nat) : Bool :=
  match lastNow with
  | none => false
  | some n => now < n

/-- Whether `now` lies before the last Heartbeat's time, which no host may issue (R140, R153). -/
def beforeLastHb (b : Session) (now : Nat) : Bool :=
  match b.lastHb with
  | none => false
  | some r => now < r.time

/-- `CHKALIVE` (R140, R141), for a `now` not before the last Heartbeat: no Heartbeat, too old, or alive. -/
def liveness (aliveTicks : Nat) (b : Session) (now : Nat) : Status :=
  match b.lastHb with
  | none => .noHeartbeat
  | some r => if now - r.time > aliveTicks then .heartbeatTimeout else .ok

/-- The refusals of a `now` operand (R153, R168), and the operation where none applies, on the state that remembers this
`now` (log 8). -/
def withTime (s : State) (now : Nat) (k : State → Host.Outcome State Fault Refusal) : Host.Outcome State Fault Refusal :=
  if timeFits s.cfg.timeW now then
    if beforeLastNow s.lastNow now || beforeLastHb s.block now then .refused .timeBackwards
    else k { s with lastNow := some now }
  else .refused .timeTooWide

/-! ## Waits pending at a reset (70_reset_and_hazards.md) -/

/-- The waits cancelled so far, with those that a `RESET` of these cells cancels (R181). -/
def cancelWaits (cancelled : Bank Nat) (cells : Bank Cell) : Bank Nat := cancelled.zip (fun n c => n + c.waiters) cells

/-! ## Cells under a `WAIT.*` operand -/

/-- A `WAIT.*` operation on the cell its operand names (R63, R125 to R127): refused for a reserved number. -/
def onSignal (sig : SigNum) (k : Signal → Host.Outcome State Fault Refusal) : Host.Outcome State Fault Refusal :=
  match signalOf sig with
  | none => .refused .reservedSignal
  | some c => k c

/-- The state with one cell replaced. -/
def setCell (s : State) (c : Signal) (v : Cell) : State :=
  { s with block := { s.block with cells := s.block.cells.set c v } }

end Sys2Proof.Machine
end

