-- ==== Sys2Proof/Machine/Codec.lean ====
section
/-! DEFINITION. The codec operations: identifiers (40_id_codec.md), the framer in both directions (41_encode.md,
42_decode.md). All are pure: they read no state and write none but the results (R182). -/

namespace Sys2Proof.Machine

/-! ## Identifiers -/

/-- `GENID` (R70). -/
def execGenid (node : NodeId) (op : Opcode) (s : State) : Host.Outcome State Fault Refusal :=
  .next (answer s (.ident (genId node op)))

/-- `SPLITID` (R71). -/
def execSplitid (id : Ident) (s : State) : Host.Outcome State Fault Refusal :=
  .next (answer s (.split (splitNode id) (splitOpcode id)))

/-! ## Transmit direction -/

/-- `ENC` (R80): the rule the tag selects, or `UnknownMessageType` (R87). -/
def execEnc (node : NodeId) (msg : Bundle) (s : State) : Host.Outcome State Fault Refusal :=
  match messageOf msg with
  | none => .next (raiseError s .unknownMessageType)
  | some m => .next (answer s (.frame (frameOf node m)))

/-- `ENC.HALT` (R81). -/
def execEncHalt (node : NodeId) (ioState : Byte) (s : State) : Host.Outcome State Fault Refusal :=
  .next (answer s (.frame (frameF1 node 0 ioState)))

/-- `ENC.HEARTBEAT` (R82). -/
def execEncHeartbeat (node : NodeId) (deviceType ioDir ioState errors counter : Byte) (s : State) :
    Host.Outcome State Fault Refusal :=
  .next (answer s (.frame (frameF5H node { deviceType, ioDir, ioState, errors, counter })))

/-- `ENC.IOSTATE` (R83). -/
def execEncIostate (node : NodeId) (ioState : Byte) (s : State) : Host.Outcome State Fault Refusal :=
  .next (answer s (.frame (frameF1 node 2 ioState)))

/-- `ENC.SETIOSTATE` (R84). -/
def execEncSetiostate (node : NodeId) (ioState : Byte) (s : State) : Host.Outcome State Fault Refusal :=
  .next (answer s (.frame (frameF1 node 3 ioState)))

/-- `ENC.SETPARAM` (R85). -/
def execEncSetparam (node : NodeId) (paramId : Byte) (value : Word32) (s : State) : Host.Outcome State Fault Refusal :=
  .next (answer s (.frame (frameF5P node paramId value)))

/-- `ENC.GETPARAM` (R86). -/
def execEncGetparam (node : NodeId) (paramId : Byte) (s : State) : Host.Outcome State Fault Refusal :=
  .next (answer s (.frame (frameF1 node 5 paramId)))

/-! ## Receive direction -/

/-- `DEC` (R90): `id[10:5]` is ignored. -/
def execDec (id : Ident) (len : Len) (data : Payload) (s : State) : Host.Outcome State Fault Refusal :=
  reportDecoded s (decodeFrame id len data)

/-- `DEC.HALT` (R94). -/
def execDecHalt (node : NodeId) (len : Len) (data : Payload) (s : State) : Host.Outcome State Fault Refusal :=
  reportDecoded s (decodeFrame (genId node 0) len data)

/-- `DEC.HEARTBEAT` (R95). -/
def execDecHeartbeat (node : NodeId) (len : Len) (data : Payload) (s : State) : Host.Outcome State Fault Refusal :=
  reportDecoded s (decodeFrame (genId node 1) len data)

/-- `DEC.IOSTATE` (R96). -/
def execDecIostate (node : NodeId) (len : Len) (data : Payload) (s : State) : Host.Outcome State Fault Refusal :=
  reportDecoded s (decodeFrame (genId node 2) len data)

/-- `DEC.SETIOSTATE` (R97). -/
def execDecSetiostate (node : NodeId) (len : Len) (data : Payload) (s : State) : Host.Outcome State Fault Refusal :=
  reportDecoded s (decodeFrame (genId node 3) len data)

/-- `DEC.SETPARAM` (R98). -/
def execDecSetparam (node : NodeId) (len : Len) (data : Payload) (s : State) : Host.Outcome State Fault Refusal :=
  reportDecoded s (decodeFrame (genId node 4) len data)

/-- `DEC.GETPARAM` (R99). -/
def execDecGetparam (node : NodeId) (len : Len) (data : Payload) (s : State) : Host.Outcome State Fault Refusal :=
  reportDecoded s (decodeFrame (genId node 5) len data)

/-- `DEC` of an identifier whose opcode is 6 to 7: no variant matches (R92). -/
def execUnassigned6to7 (node : NodeId) (x : BitVec 1) (len : Len) (data : Payload) (s : State) :
    Host.Outcome State Fault Refusal :=
  reportDecoded s (decodeFrame (genId node (0b0011#4 ++ x)) len data)

/-- `DEC` of an identifier whose opcode is 8 to 15: no variant matches (R92). -/
def execUnassigned8to15 (node : NodeId) (x : BitVec 3) (len : Len) (data : Payload) (s : State) :
    Host.Outcome State Fault Refusal :=
  reportDecoded s (decodeFrame (genId node (0b01#2 ++ x)) len data)

/-- `DEC` of an identifier whose opcode is 16 to 31: no variant matches (R92). -/
def execUnassigned16to31 (node : NodeId) (x : BitVec 4) (len : Len) (data : Payload) (s : State) :
    Host.Outcome State Fault Refusal :=
  reportDecoded s (decodeFrame (genId node (0b1#1 ++ x)) len data)

end Sys2Proof.Machine
end

