-- ==== Sys2Proof/Machine/Intake.lean ====
section
/-! DEFINITION. Frame intake and dispatch: `RX` (43_intake_dispatch.md), the only operation that writes session data. -/

namespace Sys2Proof.Machine

/-- Dispatch of a decoded message by its variant (R105): a Heartbeat (R106), an IoState (R107), any other (R108). Only the
Heartbeat path reads `now` (R112). -/
def dispatch (m : Message) (now : Nat) (s : State) : State :=
  match m with
  | .heartbeat h =>
    { s with
      block := recordHeartbeat s.block h now
      out := ⟨.message m, { edgeEvents s.block.ioState h.ioState with alive := true }⟩ }
  | .ioState v =>
    { s with
      block := pinUpdate s.block v
      out := ⟨.message m, edgeEvents s.block.ioState v⟩ }
  | .halt _ => answer s (.message m)
  | .setIoState _ => answer s (.message m)
  | .setParameter _ _ => answer s (.message m)
  | .getParameter _ => answer s (.message m)

/-- `RX` (R100): the node filter (R101), then the remote-request drop (R102), then `DEC`, whose error drops the frame
(R104), then dispatch. A `now` that decreases is refused whatever the frame (R153, R168). -/
def execRx (id : Ident) (rtr : Bool) (len : Len) (data : Payload) (now : Nat) (s : State) :
    Host.Outcome State Fault Refusal :=
  withTime s now fun s =>
    if splitNode id ≠ s.cfg.nodeId then .next (raiseError s .dropNode)
    else if rtr then .next (raiseError s .dropRtr)
    else
      match decodeFrame id len data with
      | .error st => .next (raiseError s st)
      | .ok none => .fault .payloadRead
      | .ok (some m) => .next (dispatch m now s)

end Sys2Proof.Machine
end

