-- ==== Sys2Proof/Machine/Liveness.lean ====
section
/-! DEFINITION. The liveness check, the output command it gates, and the record reads (45_liveness_output.md). None
writes the block's state. -/

namespace Sys2Proof.Machine

/-- `CHKALIVE` (R140, R141). -/
def execChkalive (now : Nat) (s : State) : Host.Outcome State Fault Refusal :=
  withTime s now fun s => .next (answer s (.status (liveness s.cfg.aliveTicks s.block now)))

/-- `SETOUT` (R142): the liveness check first; if it passes, the `SetIoState` frame of this node. -/
def execSetout (value : Byte) (now : Nat) (s : State) : Host.Outcome State Fault Refusal :=
  withTime s now fun s =>
    match liveness s.cfg.aliveTicks s.block now with
    | .ok => .next (answer s (.frame (frameOf s.cfg.nodeId (.setIoState value))))
    | st => .next (raiseError s st)

/-- `RD.HB` (R145). -/
def execRdHb (s : State) : Host.Outcome State Fault Refusal :=
  .next (answer s (.lastHeartbeat (s.block.lastHb.map HbRecord.fields)))

/-- `RD.NODEID` (R146). -/
def execRdNodeid (s : State) : Host.Outcome State Fault Refusal :=
  .next (answer s (.nodeId s.cfg.nodeId))

end Sys2Proof.Machine
end

