-- ==== Sys2Proof/Machine/Signals.lean ====
section
/-! DEFINITION. The waits on signal cells and the pin reads (44_pin_signals.md). -/

namespace Sys2Proof.Machine

/-- `WAIT.ENTER` (R125): one more waiter, refused on a full counter (R134). -/
def execWaitEnter (sig : SigNum) (s : State) : Host.Outcome State Fault Refusal :=
  onSignal sig fun c =>
    if (s.block.cells.get c).full s.cfg.waiterW then .refused .counterFull
    else .next (answer (setCell s c (s.block.cells.get c).enter) .none)

/-- `WAIT.OBSERVE` (R126): refused with no waiter; held while the flag is 0, which a polling port shows as `PENDING` with
no state change (DESIGN CHOICE, log 10); otherwise one waiter has observed, and the last one clears the flag. -/
def execWaitObserve (sig : SigNum) (s : State) : Host.Outcome State Fault Refusal :=
  onSignal sig fun c =>
    if (s.block.cells.get c).waiters = 0 then .refused .noWaiter
    else if (s.block.cells.get c).flag then
      .next (answer (setCell s c (s.block.cells.get c).leave) (.status .ok))
    else .next (raiseError s .pending)

/-- `WAIT.ABANDON` (R127): one waiter fewer, whether or not the flag is set; refused with no waiter. -/
def execWaitAbandon (sig : SigNum) (s : State) : Host.Outcome State Fault Refusal :=
  onSignal sig fun c =>
    if (s.block.cells.get c).waiters = 0 then .refused .noWaiter
    else .next (answer (setCell s c (s.block.cells.get c).leave) .none)

/-- `RD.IOSTATE` (R130). -/
def execRdIostate (s : State) : Host.Outcome State Fault Refusal :=
  .next (answer s (.ioState s.block.ioState))

/-- `RD.PIN` (R131). -/
def execRdPin (n : BitVec 3) (s : State) : Host.Outcome State Fault Refusal :=
  .next (answer s (.pin (s.block.ioState.getLsbD n.toNat) (s.block.prevState.getLsbD n.toNat)))

end Sys2Proof.Machine
end

