-- ==== Sys2Proof/Machine/System.lean ====
section
/-! DEFINITION. `RESET` (70_reset_and_hazards.md R180) and the reserved operation code. -/

namespace Sys2Proof.Machine

/-- `RESET` (R180): every session register at its reset value, and a new session, in which any `now` may come first. The
waits counted in the cells end as `CANCELLED`, which the host's account of them takes up (R181; log 11). It has no result
(R62), is no pin update and pulses nothing. -/
def execReset (s : State) : Host.Outcome State Fault Refusal :=
  .next (answer
    { s with
      block := Session.initial s.cfg.ioReset
      lastNow := none
      cancelledWaits := cancelWaits s.cancelledWaits s.block.cells }
    .none)

/-- `cmd` = 0xF: "reserved; a model refuses it" (R62, R153). -/
def execReservedCmd (_s : State) : Host.Outcome State Fault Refusal := .refused .reservedCommand

end Sys2Proof.Machine
end

