-- ==== Sys2Proof/Machine/Dispatch.lean ====
section
/-! DEFINITION. The meaning of every operation. -/

namespace Sys2Proof.Machine

def exec (i : Instr) (s : State) : Host.Outcome State Fault Refusal :=
  match i with
  | .encHalt node v => Sys2Proof.Machine.execEncHalt node v s
  | .encHeartbeat node dt dir io err cnt => Sys2Proof.Machine.execEncHeartbeat node dt dir io err cnt s
  | .encIostate node v => Sys2Proof.Machine.execEncIostate node v s
  | .encSetiostate node v => Sys2Proof.Machine.execEncSetiostate node v s
  | .encSetparam node p v => Sys2Proof.Machine.execEncSetparam node p v s
  | .encGetparam node p => Sys2Proof.Machine.execEncGetparam node p s
  | .decHalt node len data => Sys2Proof.Machine.execDecHalt node len data s
  | .decHeartbeat node len data => Sys2Proof.Machine.execDecHeartbeat node len data s
  | .decIostate node len data => Sys2Proof.Machine.execDecIostate node len data s
  | .decSetiostate node len data => Sys2Proof.Machine.execDecSetiostate node len data s
  | .decSetparam node len data => Sys2Proof.Machine.execDecSetparam node len data s
  | .decGetparam node len data => Sys2Proof.Machine.execDecGetparam node len data s
  | .unassigned6to7 node x len data => Sys2Proof.Machine.execUnassigned6to7 node x len data s
  | .unassigned8to15 node x len data => Sys2Proof.Machine.execUnassigned8to15 node x len data s
  | .unassigned16to31 node x len data => Sys2Proof.Machine.execUnassigned16to31 node x len data s
  | .reset => Sys2Proof.Machine.execReset s
  | .rx id rtr len data now => Sys2Proof.Machine.execRx id rtr len data now s
  | .setout value now => Sys2Proof.Machine.execSetout value now s
  | .chkalive now => Sys2Proof.Machine.execChkalive now s
  | .waitEnter sig => Sys2Proof.Machine.execWaitEnter sig s
  | .waitObserve sig => Sys2Proof.Machine.execWaitObserve sig s
  | .waitAbandon sig => Sys2Proof.Machine.execWaitAbandon sig s
  | .rdIostate => Sys2Proof.Machine.execRdIostate s
  | .rdPin n => Sys2Proof.Machine.execRdPin n s
  | .rdHb => Sys2Proof.Machine.execRdHb s
  | .rdNodeid => Sys2Proof.Machine.execRdNodeid s
  | .genid node op => Sys2Proof.Machine.execGenid node op s
  | .splitid id => Sys2Proof.Machine.execSplitid id s
  | .enc node msg => Sys2Proof.Machine.execEnc node msg s
  | .dec id len data => Sys2Proof.Machine.execDec id len data s
  | .reservedCmd => Sys2Proof.Machine.execReservedCmd s

end Sys2Proof.Machine
end

