-- ==== Sys2Proof/Machine/Step.lean ====
section
/-! DEFINITION. One step: the block takes the next operation the host has issued and runs it (00_scope.md R7, 10_state.md
R17). -/

namespace Sys2Proof.Machine

/-- One step. With nothing issued the block holds its state and shows nothing; lanes that are no operation are refused by
name; otherwise the operation taken runs, with the operations after it still to come (log 1). -/
def step (s : State) : Host.Outcome State Fault Refusal :=
  match nextIssue s with
  | none => .next (answer s .none)
  | some (i, rest) =>
    match decode i with
    | .error e => .refused (.malformed e)
    | .ok op => exec op { s with pending := rest }

/-- The state in which the host has issued a word of spec/opcode_table.json as the next operation (log 1). -/
def State.withFetchWord (s : State) (nbits w : Nat) : State :=
  { s with pending := tableIssue nbits w :: s.pending }

end Sys2Proof.Machine
end

