-- ==== Sys2Proof/WellFormed.lean ====
section
/-! DEFINITION. Which operations are well formed: the operands a width alone does not bound. -/

namespace Sys2Proof

/-- `sig` names a cell: 0 to 24. The numbers 25 to 31 are reserved (30_encoding.md R63). -/
def SigNum.named (sig : SigNum) : Bool := sig.toNat ≤ 24

/-- Every operand is one the operation has. All widths are in the types (R4, R72), so only the signal number of a
`WAIT.*` operation is checked. -/
def Instr.wellFormed : Instr → Bool
  | .encHalt _ _ => true
  | .encHeartbeat _ _ _ _ _ _ => true
  | .encIostate _ _ => true
  | .encSetiostate _ _ => true
  | .encSetparam _ _ _ => true
  | .encGetparam _ _ => true
  | .decHalt _ _ _ => true
  | .decHeartbeat _ _ _ => true
  | .decIostate _ _ _ => true
  | .decSetiostate _ _ _ => true
  | .decSetparam _ _ _ => true
  | .decGetparam _ _ _ => true
  | .unassigned6to7 _ _ _ _ => true
  | .unassigned8to15 _ _ _ _ => true
  | .unassigned16to31 _ _ _ _ => true
  | .reset => true
  | .rx _ _ _ _ _ => true
  | .setout _ _ => true
  | .chkalive _ => true
  | .waitEnter sig => SigNum.named sig
  | .waitObserve sig => SigNum.named sig
  | .waitAbandon sig => SigNum.named sig
  | .rdIostate => true
  | .rdPin _ => true
  | .rdHb => true
  | .rdNodeid => true
  | .genid _ _ => true
  | .splitid _ => true
  | .enc _ _ => true
  | .dec _ _ _ => true
  | .reservedCmd => true

end Sys2Proof
end

