-- ==== Sys2Proof/Safety.lean ====
section
/-! DEFINITION. What counts as a sound state and a safe step, in the terms the statements use. -/

namespace Sys2Proof.Machine

/-! ## The invariant -/

/-- A signal is set only while somebody waits on it (10_state.md R16, 44_pin_signals.md R128 (a)). -/
def Session.flagsHaveWaiters (b : Session) : Prop :=
  ∀ c : Signal, (b.cells.get c).flag = true → 0 < (b.cells.get c).waiters

/-- Every waiter count fits its counter (R134: "the counter never wraps"). -/
def State.waitersFit (s : State) : Prop :=
  ∀ w, s.cfg.waiterW = some w → ∀ c : Signal, (s.block.cells.get c).waiters < 2 ^ w

/-- The time of the last Heartbeat fits `hb_time` (R15). -/
def State.hbTimeFits (s : State) : Prop :=
  ∀ w r, s.cfg.timeW = some w → s.block.lastHb = some r → r.time < 2 ^ w

/-- The `now` of the last step fits the `now` port (R168). -/
def State.lastNowFits (s : State) : Prop :=
  ∀ w n, s.cfg.timeW = some w → s.lastNow = some n → n < 2 ^ w

/-- The last Heartbeat came no later than the last step of its session that carried a `now` (R15, R168). -/
def State.hbTimeIsPast (s : State) : Prop :=
  ∀ r, s.block.lastHb = some r → ∃ n, s.lastNow = some n ∧ r.time ≤ n

/-- The invariant of the machine: what every step keeps and reset establishes. -/
structure State.Inv (s : State) : Prop where
  flags : s.block.flagsHaveWaiters
  counters : s.waitersFit
  time : s.hbTimeFits
  lastNow : s.lastNowFits
  past : s.hbTimeIsPast

/-- The host may issue this `now`: the port carries it, and it lies before neither an earlier step's `now` nor the last
Heartbeat's time (60_exceptions.md R153, R168). -/
structure State.admits (s : State) (now : Nat) : Prop where
  fits : ∀ w, s.cfg.timeW = some w → now < 2 ^ w
  steps : ∀ n, s.lastNow = some n → n ≤ now
  heartbeat : ∀ r, s.block.lastHb = some r → r.time ≤ now

/-- A step reports no fault. -/
def State.stepSafe (s : State) : Prop := ∀ f, step s ≠ .fault f

/-! ## Signals and pulses -/

/-- Whether the pulses name a signal: the step raised it (44_pin_signals.md R123). -/
def Events.names (ev : Events) : Signal → Bool
  | .rise n => ev.rise.getLsbD n
  | .fall n => ev.fall.getLsbD n
  | .change n => ev.change.getLsbD n
  | .alive => ev.alive

/-- `t` differs from `s` in the cell `c` and in what is shown, and in nothing else. -/
structure State.sameBut (s t : State) (c : Signal) : Prop where
  cfg : t.cfg = s.cfg
  lastNow : t.lastNow = s.lastNow
  cancelledWaits : t.cancelledWaits = s.cancelledWaits
  pending : t.pending = s.pending
  ioState : t.block.ioState = s.block.ioState
  prevState : t.block.prevState = s.block.prevState
  lastHb : t.block.lastHb = s.block.lastHb
  others : ∀ d : Signal, d ≠ c → t.block.cells.get d = s.block.cells.get d

/-! ## Operations by class -/

/-- The classes of operation of 46_laws_control_system.md R203, and the reserved code. -/
inductive OpClass where
  | pureCodec
  | sessionWrite
  | registerRead
  | check
  | output
  | wait
  | reset
  | reserved
deriving DecidableEq, Repr

/-- The class of each operation (R203). -/
def opClass : Instr → OpClass
  | .encHalt _ _ => .pureCodec
  | .encHeartbeat _ _ _ _ _ _ => .pureCodec
  | .encIostate _ _ => .pureCodec
  | .encSetiostate _ _ => .pureCodec
  | .encSetparam _ _ _ => .pureCodec
  | .encGetparam _ _ => .pureCodec
  | .decHalt _ _ _ => .pureCodec
  | .decHeartbeat _ _ _ => .pureCodec
  | .decIostate _ _ _ => .pureCodec
  | .decSetiostate _ _ _ => .pureCodec
  | .decSetparam _ _ _ => .pureCodec
  | .decGetparam _ _ _ => .pureCodec
  | .unassigned6to7 _ _ _ _ => .pureCodec
  | .unassigned8to15 _ _ _ _ => .pureCodec
  | .unassigned16to31 _ _ _ _ => .pureCodec
  | .reset => .reset
  | .rx _ _ _ _ _ => .sessionWrite
  | .setout _ _ => .output
  | .chkalive _ => .check
  | .waitEnter _ => .wait
  | .waitObserve _ => .wait
  | .waitAbandon _ => .wait
  | .rdIostate => .registerRead
  | .rdPin _ => .registerRead
  | .rdHb => .registerRead
  | .rdNodeid => .registerRead
  | .genid _ _ => .pureCodec
  | .splitid _ => .pureCodec
  | .enc _ _ => .pureCodec
  | .dec _ _ _ => .pureCodec
  | .reservedCmd => .reserved

/-! ## The time operand -/

/-- The `now` operand of an operation; only `RX`, `SETOUT` and `CHKALIVE` have one (60_exceptions.md R168). -/
def timeOf : Instr → Option Nat
  | .encHalt _ _ => none
  | .encHeartbeat _ _ _ _ _ _ => none
  | .encIostate _ _ => none
  | .encSetiostate _ _ => none
  | .encSetparam _ _ _ => none
  | .encGetparam _ _ => none
  | .decHalt _ _ _ => none
  | .decHeartbeat _ _ _ => none
  | .decIostate _ _ _ => none
  | .decSetiostate _ _ _ => none
  | .decSetparam _ _ _ => none
  | .decGetparam _ _ _ => none
  | .unassigned6to7 _ _ _ _ => none
  | .unassigned8to15 _ _ _ _ => none
  | .unassigned16to31 _ _ _ _ => none
  | .reset => none
  | .rx _ _ _ _ now => some now
  | .setout _ now => some now
  | .chkalive now => some now
  | .waitEnter _ => none
  | .waitObserve _ => none
  | .waitAbandon _ => none
  | .rdIostate => none
  | .rdPin _ => none
  | .rdHb => none
  | .rdNodeid => none
  | .genid _ _ => none
  | .splitid _ => none
  | .enc _ _ => none
  | .dec _ _ _ => none
  | .reservedCmd => none

/-- The state that remembers the `now` an operation carries, where it carries one (log 8). -/
def State.noted (s : State) (i : Instr) : State := { s with lastNow := (timeOf i).or s.lastNow }

/-! ## What an operation answers -/

/-- From every state, the operation answers these results, pulses nothing and changes nothing else. -/
def answers (i : Instr) (r : Result) : Prop := ∀ s, exec i s = .next { s with out := ⟨r, Events.none⟩ }

/-- From every state, the operation answers the frame of this node, opcode, length and payload, with `rtr` = 0, and
changes nothing else (30_encoding.md R50, R52). -/
def sendsFrame (i : Instr) (node : NodeId) (op : Nat) (len : Len) (data : Payload) : Prop :=
  ∃ f : Frame, answers i (.frame f) ∧ f.id.toNat = 32 * node.toNat + op ∧ f.rtr = false ∧ f.len = len ∧ f.data = data

end Sys2Proof.Machine
end

