-- ==== Sys2Proof/Certificates/Slice0/Obligations.lean ====
section
/-! DEFINITION. The statements for the provers. Each docstring names the rule of spec/ that the statement formalises. -/

open Sys2Proof Sys2Proof.Machine

/-! ## Decoding and the step -/

/-- Decoding what the encoder writes gives the operation back, with every operand at every value its width admits, the
reserved signal numbers among them. The lane layout is the model's (log 2); the codes and widths are those of R52, R56,
R62. -/
def Obligations.DecodeOfEncodeIsTheOperation : Prop := ∀ i : Instr, decode (encode i) = .ok i

/-- Words written out from R52, R56, R62 and R63 decode to the operations they stand for (lane layout: log 2). -/
def Obligations.WordsOfTheTableDecode : Prop :=
  decode ⟨.cmd, [0x00]⟩ = .ok .reset ∧
  decode ⟨.cmd, [0x0B, 0x01, 0x0C]⟩ = .ok (.genid 1 12) ∧
  decode ⟨.cmd, [0x0C, 0x2C, 0x00]⟩ = .ok (.splitid 0x02C) ∧
  decode ⟨.cmd, [0x04, 0x18]⟩ = .ok (.waitEnter 24) ∧
  decode ⟨.cmd, [0x02, 0x80, 0xE8, 0x03]⟩ = .ok (.setout 0x80 1000) ∧
  decode ⟨.tx, [0x23, 0x00, 0x01]⟩ = .ok (.encSetiostate 1 1) ∧
  decode ⟨.rx, [0xE1, 0x07, 0x05, 9, 8, 7, 6, 5, 0, 0, 0]⟩ = .ok (.decHeartbeat 63 5 ⟨9, 8, 7, 6, 5, 0, 0, 0⟩) ∧
  decode ⟨.rx, [0x2C, 0x00, 0x01, 0, 0, 0, 0, 0, 0, 0, 0]⟩ = .ok (.unassigned8to15 1 4 1 ⟨0, 0, 0, 0, 0, 0, 0, 0⟩)

/-- A step runs the operation that the issued lanes decode to, with that issue taken from the queue (log 1). -/
def Obligations.StepRunsTheDecodedOperation : Prop :=
  ∀ (s : State) (issue : Issue) (rest : List Issue) (i : Instr),
    s.pending = issue :: rest → decode issue = .ok i → step s = exec i { s with pending := rest }

/-- With nothing issued, the block holds its state and shows nothing (the model's choice, log 1). -/
def Obligations.StepWithNothingIssuedHolds : Prop :=
  ∀ s : State, s.pending = [] → step s = .next { s with out := ⟨.none, Events.none⟩ }

/-- R72: a `GENID` or `SPLITID` whose operands are given in wider lanes refuses a node above 63, an opcode above 31, an
identifier above 0x7FF. The lanes and the queue they are issued on are the model's (logs 1 and 2). -/
def Obligations.WideIdentifierOperandsAreRefused : Prop :=
  (∀ (s : State) (node op : Byte) (more : List Byte) (rest : List Issue),
    s.pending = ⟨.cmd, 0x0B :: node :: op :: more⟩ :: rest → 63 < node.toNat ∨ 31 < op.toNat →
      ∃ e, step s = .refused (.malformed e)) ∧
  (∀ (s : State) (lo hi : Byte) (more : List Byte) (rest : List Issue),
    s.pending = ⟨.cmd, 0x0C :: lo :: hi :: more⟩ :: rest → 0x7FF < lo.toNat + 256 * hi.toNat →
      ∃ e, step s = .refused (.malformed e))

/-- Every step keeps the invariant: a set signal has a waiter (R16, R128 (a)), the counters fit `WAITER_W` (R134), the
time of the last Heartbeat fits `TIME_W` (R15), as does the last `now` of the session, and it lies no later than that one
(R168; the last `now` is kept beside the block, log 8). -/
def Obligations.StepKeepsTheInvariant : Prop :=
  ∀ s t : State, s.Inv → step s = .next t → t.Inv

/-- The invariant holds at reset. -/
def Obligations.ResetStateHasTheInvariant : Prop := State.reset.Inv

/-- No step faults: every payload read is inside its payload (R35, R91), and no error stops the block (R164). -/
def Obligations.StepNeverFaults : Prop := ∀ s : State, s.stepSafe

/-- R18: the construction parameters are constant; nor does an operation touch the operations still to come (log 1). -/
def Obligations.OperationsKeepConfigurationAndQueue : Prop :=
  ∀ (i : Instr) (s t : State), exec i s = .next t → t.cfg = s.cfg ∧ t.pending = s.pending

/-- R22, over every operation: only `RX` and `RESET` write session data, only `RX` sets a flag, only `WAIT.*` and `RESET`
clear one or change a count, and the reads, checks, outputs and codec operations write no state. -/
def Obligations.OnlyRxAndResetWriteSessionData : Prop :=
  ∀ (i : Instr) (s t : State), exec i s = .next t →
    ((t.block.ioState ≠ s.block.ioState ∨ t.block.prevState ≠ s.block.prevState ∨ t.block.lastHb ≠ s.block.lastHb) →
      opClass i = .sessionWrite ∨ opClass i = .reset) ∧
    (∀ c : Signal, (s.block.cells.get c).flag = false → (t.block.cells.get c).flag = true → opClass i = .sessionWrite) ∧
    (∀ c : Signal, (s.block.cells.get c).flag = true → (t.block.cells.get c).flag = false →
      opClass i = .wait ∨ opClass i = .reset) ∧
    (∀ c : Signal, (t.block.cells.get c).waiters ≠ (s.block.cells.get c).waiters →
      opClass i = .wait ∨ opClass i = .reset) ∧
    (opClass i = .pureCodec ∨ opClass i = .registerRead ∨ opClass i = .check ∨ opClass i = .output → t.block = s.block)

/-- After R163, over every operation: a step that answers a status other than `OK` changes nothing of the block and pulses
nothing. That the `now` it carried is remembered beside the block, in `lastNow`, is the model's choice (log 8). -/
def Obligations.ErrorsChangeNothing : Prop :=
  ∀ (i : Instr) (s t : State) (st : Status), exec i s = .next t → t.out.result = .status st → st ≠ .ok →
    t = { s.noted i with out := ⟨.status st, Events.none⟩ }

/-- R14: `hb_valid` is 0 from reset until the first Heartbeat dispatch and 1 from then until the next reset; while it is 0
the record holds no value and `RD.HB` answers absent. -/
def Obligations.HeartbeatValidUntilReset : Prop :=
  (∀ (i : Instr) (s t : State), exec i s = .next t →
    (s.block.hbValid = false → t.block.hbValid = true →
      ∃ id rtr len data now h, i = .rx id rtr len data now ∧ t.out.result = .message (.heartbeat h)) ∧
    (∀ id rtr len data now h, i = .rx id rtr len data now → t.out.result = .message (.heartbeat h) →
      t.block.hbValid = true) ∧
    (s.block.hbValid = true → i ≠ .reset → t.block.hbValid = true) ∧
    (i = .reset → t.block.hbValid = false)) ∧
  (∀ s : State, s.block.hbValid = false →
    s.block.lastHb = none ∧ exec .rdHb s = .next { s with out := ⟨.lastHeartbeat none, Events.none⟩ })

/-- Within a session `hb_time` never goes back: a `now` below it is refused (R153, R168). A session runs from a `RESET` to
the next: after one there is no record to go back from. -/
def Obligations.HeartbeatTimeNeverGoesBack : Prop :=
  ∀ (i : Instr) (s t : State) (r r' : HbRecord), exec i s = .next t → s.block.lastHb = some r → t.block.lastHb = some r' →
    r.time ≤ r'.time

/-- R128 (b), (c), over every operation: a set flag stays set, unless the last waiter of that cell leaves it or the block
is reset. -/
def Obligations.SetFlagStaysUntilTheLastWaiterLeaves : Prop :=
  ∀ (i : Instr) (s t : State) (c : Signal), exec i s = .next t → (s.block.cells.get c).flag = true → i ≠ .reset →
    (t.block.cells.get c).flag = true ∨
    ((s.block.cells.get c).waiters ≤ 1 ∧ (t.block.cells.get c).waiters = 0 ∧
      ∃ sig, signalOf sig = some c ∧ (i = .waitObserve sig ∨ i = .waitAbandon sig))

/-! ## Identifiers -/

/-- R70: `GENID` answers `32 * node + op`. -/
def Obligations.GenidPacksNodeAndOpcode : Prop :=
  ∀ (node : NodeId) (op : Opcode), ∃ id : Ident,
    answers (.genid node op) (.ident id) ∧ id.toNat = 32 * node.toNat + op.toNat

/-- R71: `SPLITID` answers the quotient and the remainder by 32. -/
def Obligations.SplitidTakesTheIdentifierApart : Prop :=
  ∀ id : Ident, ∃ (node : NodeId) (op : Opcode),
    answers (.splitid id) (.split node op) ∧ node.toNat = id.toNat / 32 ∧ op.toNat = id.toNat % 32

/-- R73: the two are exact inverses, run one after the other in either order. -/
def Obligations.GenidAndSplitidAreInverse : Prop :=
  (∀ (node : NodeId) (op : Opcode), ∃ id : Ident, answers (.genid node op) (.ident id) ∧
    answers (.splitid id) (.split node op)) ∧
  (∀ id : Ident, ∃ (node : NodeId) (op : Opcode), answers (.splitid id) (.split node op) ∧
    answers (.genid node op) (.ident id))

/-! ## The framer, transmit direction -/

/-- R81, R83, R84, R86: the frames of the one-byte variants. -/
def Obligations.EncOneByteRows : Prop :=
  ∀ (node : NodeId) (v : Byte),
    sendsFrame (.encHalt node v) node 0 1 ⟨v, 0, 0, 0, 0, 0, 0, 0⟩ ∧
    sendsFrame (.encIostate node v) node 2 1 ⟨v, 0, 0, 0, 0, 0, 0, 0⟩ ∧
    sendsFrame (.encSetiostate node v) node 3 1 ⟨v, 0, 0, 0, 0, 0, 0, 0⟩ ∧
    sendsFrame (.encGetparam node v) node 5 1 ⟨v, 0, 0, 0, 0, 0, 0, 0⟩

/-- R82: the frame of a Heartbeat. -/
def Obligations.EncHeartbeatRow : Prop :=
  ∀ (node : NodeId) (deviceType ioDir ioState errors counter : Byte),
    sendsFrame (.encHeartbeat node deviceType ioDir ioState errors counter) node 1 5
      ⟨deviceType, ioDir, ioState, errors, counter, 0, 0, 0⟩

/-- R85: the frame of a SetParameter, its value little-endian from offset 1: four bytes that sum up to the pattern. -/
def Obligations.EncSetparamRow : Prop :=
  ∀ (node : NodeId) (paramId : Byte) (value : Word32), ∃ v0 v1 v2 v3 : Byte,
    sendsFrame (.encSetparam node paramId value) node 4 5 ⟨paramId, v0, v1, v2, v3, 0, 0, 0⟩ ∧
    value.toNat = v0.toNat + 2 ^ 8 * v1.toNat + 2 ^ 16 * v2.toNat + 2 ^ 24 * v3.toNat

/-- R80, R87: `ENC` sends the frame of the variant its tag selects, and `UNKNOWN_MESSAGE_TYPE` for a tag above 5. -/
def Obligations.EncSelectsTheVariantByTag : Prop :=
  ∀ (node : NodeId) (m : Bundle),
    (m.tag = 0 → sendsFrame (.enc node m) node 0 1 ⟨m.ioState, 0, 0, 0, 0, 0, 0, 0⟩) ∧
    (m.tag = 1 → sendsFrame (.enc node m) node 1 5 ⟨m.deviceType, m.ioDir, m.ioState, m.errors, m.counter, 0, 0, 0⟩) ∧
    (m.tag = 2 → sendsFrame (.enc node m) node 2 1 ⟨m.ioState, 0, 0, 0, 0, 0, 0, 0⟩) ∧
    (m.tag = 3 → sendsFrame (.enc node m) node 3 1 ⟨m.ioState, 0, 0, 0, 0, 0, 0, 0⟩) ∧
    (m.tag = 4 → ∃ v0 v1 v2 v3 : Byte, sendsFrame (.enc node m) node 4 5 ⟨m.paramId, v0, v1, v2, v3, 0, 0, 0⟩ ∧
      m.value.toNat = v0.toNat + 2 ^ 8 * v1.toNat + 2 ^ 16 * v2.toNat + 2 ^ 24 * v3.toNat) ∧
    (m.tag = 5 → sendsFrame (.enc node m) node 5 1 ⟨m.paramId, 0, 0, 0, 0, 0, 0, 0⟩) ∧
    (5 < m.tag.toNat → answers (.enc node m) (.status .unknownMessageType))

/-- R65: a message put on an output bundle is read back from it, its tag is the opcode number, and the lanes not valid
for the tag are 0. -/
def Obligations.BundleOfAMessageIsReadBack : Prop :=
  ∀ m : Message, messageOf (bundleOf m) = some m ∧
    (bundleOf m).tag.toNat ≤ 5 ∧
    ((bundleOf m).tag.toNat > 3 → (bundleOf m).ioState = 0) ∧
    ((bundleOf m).tag ≠ 1 → (bundleOf m).deviceType = 0 ∧ (bundleOf m).ioDir = 0 ∧ (bundleOf m).errors = 0 ∧
      (bundleOf m).counter = 0) ∧
    ((bundleOf m).tag.toNat < 4 → (bundleOf m).paramId = 0) ∧
    ((bundleOf m).tag ≠ 4 → (bundleOf m).value = 0)

/-! ## The framer, receive direction -/

/-- R94, R96, R97, R99: the one-byte variants, at their length and at any other. -/
def Obligations.DecOneByteRows : Prop :=
  ∀ (node : NodeId) (len : Len) (p : Payload),
    (len = 1 →
      answers (.decHalt node len p) (.message (.halt p.b0)) ∧
      answers (.decIostate node len p) (.message (.ioState p.b0)) ∧
      answers (.decSetiostate node len p) (.message (.setIoState p.b0)) ∧
      answers (.decGetparam node len p) (.message (.getParameter p.b0))) ∧
    (len ≠ 1 →
      answers (.decHalt node len p) (.status .lengthMismatch) ∧
      answers (.decIostate node len p) (.status .lengthMismatch) ∧
      answers (.decSetiostate node len p) (.status .lengthMismatch) ∧
      answers (.decGetparam node len p) (.status .lengthMismatch))

/-- R95: a Heartbeat, at its length and at any other. -/
def Obligations.DecHeartbeatRow : Prop :=
  ∀ (node : NodeId) (len : Len) (p : Payload),
    (len = 5 → answers (.decHeartbeat node len p) (.message (.heartbeat ⟨p.b0, p.b1, p.b2, p.b3, p.b4⟩))) ∧
    (len ≠ 5 → answers (.decHeartbeat node len p) (.status .lengthMismatch))

/-- R98: a SetParameter, at its length and at any other; its value is the little-endian pattern at offsets 1 to 4, read
as two's complement. That a negative value is written in two's complement is presumed (log 12; GK1 of the spec). -/
def Obligations.DecSetparamRow : Prop :=
  ∀ (node : NodeId) (len : Len) (p : Payload),
    (len = 5 → ∃ value : Word32, answers (.decSetparam node len p) (.message (.setParameter p.b0 value)) ∧
      value.toNat = p.b1.toNat + 2 ^ 8 * p.b2.toNat + 2 ^ 16 * p.b3.toNat + 2 ^ 24 * p.b4.toNat ∧
      value.toInt = (if value.getLsbD 31 then (value.toNat : Int) - 2 ^ 32 else (value.toNat : Int))) ∧
    (len ≠ 5 → answers (.decSetparam node len p) (.status .lengthMismatch))

/-- R92: an identifier whose opcode is 6 to 31 is `UNKNOWN_OPCODE`, whatever the length; the three rows between them are
all of those opcodes. -/
def Obligations.UnassignedOpcodesAreUnknown : Prop :=
  (∀ (node : NodeId) (len : Len) (p : Payload),
    (∀ x, answers (.unassigned6to7 node x len p) (.status .unknownOpcode)) ∧
    (∀ x, answers (.unassigned8to15 node x len p) (.status .unknownOpcode)) ∧
    (∀ x, answers (.unassigned16to31 node x len p) (.status .unknownOpcode))) ∧
  (∀ (id : Ident) (len : Len) (p : Payload), 5 < id.toNat % 32 → answers (.dec id len p) (.status .unknownOpcode))

/-- R90, R91: `DEC` is total, and its checks come in order: the opcode, then the length against the variant's size, then
the fields. -/
def Obligations.DecIsTotalAndOrdered : Prop :=
  ∀ (id : Ident) (len : Len) (p : Payload),
    (5 < id.toNat % 32 → answers (.dec id len p) (.status .unknownOpcode)) ∧
    (id.toNat % 32 ≤ 5 → len.toNat ≠ (if id.toNat % 32 = 1 ∨ id.toNat % 32 = 4 then 5 else 1) →
      answers (.dec id len p) (.status .lengthMismatch)) ∧
    (id.toNat % 32 = 0 → len = 1 → answers (.dec id len p) (.message (.halt p.b0))) ∧
    (id.toNat % 32 = 1 → len = 5 → answers (.dec id len p) (.message (.heartbeat ⟨p.b0, p.b1, p.b2, p.b3, p.b4⟩))) ∧
    (id.toNat % 32 = 2 → len = 1 → answers (.dec id len p) (.message (.ioState p.b0))) ∧
    (id.toNat % 32 = 3 → len = 1 → answers (.dec id len p) (.message (.setIoState p.b0))) ∧
    (id.toNat % 32 = 4 → len = 5 → answers (.dec id len p) (.message (.setParameter p.b0 (p.b4 ++ p.b3 ++ p.b2 ++ p.b1)))) ∧
    (id.toNat % 32 = 5 → len = 1 → answers (.dec id len p) (.message (.getParameter p.b0)))

/-- R39: bytes at offsets at or beyond `len` are not part of a frame: `DEC` and `RX` answer the same whatever they are. -/
def Obligations.LanesBeyondLenAreIgnored : Prop :=
  ∀ (id : Ident) (len : Len) (p q : Payload) (s : State),
    (∀ k, k < len.toNat → k < 8 → Payload.byte p k = Payload.byte q k) →
      exec (.dec id len p) s = exec (.dec id len q) s ∧
      ∀ rtr now, exec (.rx id rtr len p now) s = exec (.rx id rtr len q now) s

/-- R88, all six clauses: the length per opcode, the identifier's fields, `rtr` = 0, `DEC` after `ENC`, `ENC` after `DEC`,
and results that do not depend on the state. -/
def Obligations.FramerRoundTrip : Prop :=
  (∀ (node : NodeId) (m : Message), ∃ f : Frame,
    answers (.enc node (bundleOf m)) (.frame f) ∧
    f.id.toNat = 32 * node.toNat + (bundleOf m).tag.toNat ∧
    f.len = (if (bundleOf m).tag = 1 ∨ (bundleOf m).tag = 4 then 5 else 1) ∧
    f.rtr = false ∧
    answers (.dec f.id f.len f.data) (.message m)) ∧
  (∀ (id : Ident) (len : Len) (p : Payload) (m : Message), answers (.dec id len p) (.message m) →
    ∃ (node : NodeId) (f : Frame), node.toNat = id.toNat / 32 ∧ answers (.enc node (bundleOf m)) (.frame f) ∧
      f.id = id ∧ f.len = len ∧ ∀ k, k < len.toNat → Payload.byte f.data k = Payload.byte p k)

/-- R35, R36, R31: a byte written is the byte read and no other offset changes; four bytes written little-endian are the
pattern read. -/
def Obligations.PayloadReadAfterWrite : Prop :=
  ∀ (p : Payload) (len off : Nat), len ≤ 8 →
    (off + 1 ≤ len → ∀ (v : Byte) (k : Nat), k < len →
      memRead8 len (memWrite8 p off v) k = some (if k = off then v else Payload.byte p k)) ∧
    (off + 4 ≤ len → ∀ v : Word32,
      memRead32 len (memWrite32 p off v) off = some v ∧
      (∀ j, j < 4 → memRead8 len (memWrite32 p off v) (off + j) = some (v.extractLsb' (8 * j) 8)) ∧
      (∀ k, k < len → k < off ∨ off + 4 ≤ k → memRead8 len (memWrite32 p off v) k = some (Payload.byte p k)))

/-! ## Frame intake -/

/-- After R101: a frame of another node is dropped, remote request or not, and nothing of the block changes; a frame of
this node is never dropped for its node. The premise `admits` is the host's duty about `now` (R153, R168); that `now` is
remembered beside the block, in `lastNow`, is the model's choice (log 8). -/
def Obligations.RxDropsFramesOfOtherNodes : Prop :=
  ∀ (s : State) (id : Ident) (rtr : Bool) (len : Len) (p : Payload) (now : Nat), s.admits now →
    (id.toNat / 32 ≠ s.cfg.nodeId.toNat →
      exec (.rx id rtr len p now) s = .next { s with lastNow := some now, out := ⟨.status .dropNode, Events.none⟩ }) ∧
    (id.toNat / 32 = s.cfg.nodeId.toNat →
      ∀ t, exec (.rx id rtr len p now) s = .next t → t.out.result ≠ .status .dropNode)

/-- After R102: a remote request for this node is dropped, whatever its opcode and length, and nothing of the block
changes. The premise `admits` is the host's duty about `now` (R153, R168); that `now` is remembered beside the block, in
`lastNow`, is the model's choice (log 8). -/
def Obligations.RxDropsRemoteRequests : Prop :=
  ∀ (s : State) (id : Ident) (len : Len) (p : Payload) (now : Nat),
    s.admits now → id.toNat / 32 = s.cfg.nodeId.toNat →
      exec (.rx id true len p now) s = .next { s with lastNow := some now, out := ⟨.status .dropRtr, Events.none⟩ }

/-- After R104: a frame that does not decode is dropped with the decoder's status, and nothing of the block changes. The
premise `admits` is the host's duty about `now` (R153, R168); that `now` is remembered beside the block, in `lastNow`, is
the model's choice (log 8). -/
def Obligations.RxDropsFramesThatDoNotDecode : Prop :=
  ∀ (s : State) (id : Ident) (len : Len) (p : Payload) (now : Nat),
    s.admits now → id.toNat / 32 = s.cfg.nodeId.toNat →
      (5 < id.toNat % 32 →
        exec (.rx id false len p now) s =
          .next { s with lastNow := some now, out := ⟨.status .unknownOpcode, Events.none⟩ }) ∧
      (id.toNat % 32 ≤ 5 → len.toNat ≠ (if id.toNat % 32 = 1 ∨ id.toNat % 32 = 4 then 5 else 1) →
        exec (.rx id false len p now) s =
          .next { s with lastNow := some now, out := ⟨.status .lengthMismatch, Events.none⟩ })

/-- After R106: a Heartbeat is recorded with its time, updates the pins, and raises `alive`. The premise `admits` is the
host's duty about `now` (R153, R168). That `now` is remembered beside the block, in `lastNow`, and that the account
`cancelledWaits` is kept there, unchanged by this operation, are the model's choices (logs 8 and 11), as is the queue
`pending` (log 1). -/
def Obligations.RxDispatchesAHeartbeat : Prop :=
  ∀ (s : State) (id : Ident) (p : Payload) (now : Nat),
    s.admits now → id.toNat / 32 = s.cfg.nodeId.toNat → id.toNat % 32 = 1 →
      ∃ t, exec (.rx id false 5 p now) s = .next t ∧
        t.cfg = s.cfg ∧ t.pending = s.pending ∧ t.lastNow = some now ∧ t.cancelledWaits = s.cancelledWaits ∧
        t.block.lastHb = some ⟨⟨p.b0, p.b1, p.b2, p.b3, p.b4⟩, now⟩ ∧
        t.block.ioState = p.b2 ∧ t.block.prevState = s.block.ioState ∧
        (∀ c : Signal, t.block.cells.get c =
          if t.out.events.names c then
            ⟨(s.block.cells.get c).flag || decide (0 < (s.block.cells.get c).waiters), (s.block.cells.get c).waiters⟩
          else s.block.cells.get c) ∧
        t.out.result = .message (.heartbeat ⟨p.b0, p.b1, p.b2, p.b3, p.b4⟩) ∧
        t.out.events =
          ⟨s.block.ioState ^^^ p.b2, ~~~s.block.ioState &&& p.b2, s.block.ioState &&& ~~~p.b2, true⟩

/-- After R107: an IoState updates the pins, and neither the heartbeat record nor `alive`. The premise `admits` is the
host's duty about `now` (R153, R168). That `now` is remembered beside the block, in `lastNow`, and that the account
`cancelledWaits` is kept there, unchanged by this operation, are the model's choices (logs 8 and 11), as is the queue
`pending` (log 1). -/
def Obligations.RxDispatchesAnIoState : Prop :=
  ∀ (s : State) (id : Ident) (p : Payload) (now : Nat),
    s.admits now → id.toNat / 32 = s.cfg.nodeId.toNat → id.toNat % 32 = 2 →
      ∃ t, exec (.rx id false 1 p now) s = .next t ∧
        t.cfg = s.cfg ∧ t.pending = s.pending ∧ t.lastNow = some now ∧ t.cancelledWaits = s.cancelledWaits ∧
        t.block.lastHb = s.block.lastHb ∧
        t.block.ioState = p.b0 ∧ t.block.prevState = s.block.ioState ∧
        (∀ c : Signal, t.block.cells.get c =
          if t.out.events.names c then
            ⟨(s.block.cells.get c).flag || decide (0 < (s.block.cells.get c).waiters), (s.block.cells.get c).waiters⟩
          else s.block.cells.get c) ∧
        t.out.result = .message (.ioState p.b0) ∧
        t.out.events =
          ⟨s.block.ioState ^^^ p.b0, ~~~s.block.ioState &&& p.b0, s.block.ioState &&& ~~~p.b0, false⟩

/-- After R108: the other four variants decode and change nothing of the block. The premise `admits` is the host's duty
about `now` (R153, R168); that `now` is remembered beside the block, in `lastNow`, is the model's choice (log 8). -/
def Obligations.RxOtherVariantsChangeNothing : Prop :=
  ∀ (s : State) (id : Ident) (p : Payload) (now : Nat), s.admits now → id.toNat / 32 = s.cfg.nodeId.toNat →
    (id.toNat % 32 = 0 →
      exec (.rx id false 1 p now) s =
        .next { s with lastNow := some now, out := ⟨.message (.halt p.b0), Events.none⟩ }) ∧
    (id.toNat % 32 = 3 →
      exec (.rx id false 1 p now) s =
        .next { s with lastNow := some now, out := ⟨.message (.setIoState p.b0), Events.none⟩ }) ∧
    (id.toNat % 32 = 4 →
      exec (.rx id false 5 p now) s =
        .next { s with
          lastNow := some now
          out := ⟨.message (.setParameter p.b0 (p.b4 ++ p.b3 ++ p.b2 ++ p.b1)), Events.none⟩ }) ∧
    (id.toNat % 32 = 5 →
      exec (.rx id false 1 p now) s =
        .next { s with lastNow := some now, out := ⟨.message (.getParameter p.b0), Events.none⟩ })

/-- R153, R168, within a session: a `now` below that of an earlier step since the last `RESET`, or below the last
Heartbeat's time, is refused by all three operations that take one, whatever the frame and whatever the value. R168 speaks
of the steps of one instance; that a `RESET` starts the order anew is the model's deduction, and the field `lastNow` that
holds the earlier `now` its choice (log 8). -/
def Obligations.DecreasingNowIsRefused : Prop :=
  ∀ (s : State) (now : Nat), (∀ w, s.cfg.timeW = some w → now < 2 ^ w) →
    (∃ n, s.lastNow = some n ∧ now < n) ∨ (∃ r, s.block.lastHb = some r ∧ now < r.time) →
      (∀ id rtr len p, exec (.rx id rtr len p now) s = .refused .timeBackwards) ∧
      (∀ value, exec (.setout value now) s = .refused .timeBackwards) ∧
      exec (.chkalive now) s = .refused .timeBackwards

/-- R109: what `RX` can answer, and when it pulses. -/
def Obligations.RxPulsesOnlyForReports : Prop :=
  ∀ (s t : State) (id : Ident) (rtr : Bool) (len : Len) (p : Payload) (now : Nat),
    exec (.rx id rtr len p now) s = .next t →
      ((∃ m, t.out.result = .message m) ∨ t.out.result = .status .dropNode ∨ t.out.result = .status .dropRtr ∨
        t.out.result = .status .unknownOpcode ∨ t.out.result = .status .lengthMismatch) ∧
      (t.out.events ≠ Events.none →
        (∃ h, t.out.result = .message (.heartbeat h)) ∨ (∃ v, t.out.result = .message (.ioState v)))

/-- R121: what one pin does in an update to `new`, and the identities of the pulses. The update is any `RX` that answers a
Heartbeat or an IoState whose `io_state` field is `new`. -/
def Obligations.OnePinOfAnUpdate : Prop :=
  ∀ (s t : State) (id : Ident) (rtr : Bool) (len : Len) (p : Payload) (now : Nat) (new : Byte) (n : Fin 8),
    exec (.rx id rtr len p now) s = .next t →
    ((∃ h, t.out.result = .message (.heartbeat h) ∧ h.ioState = new) ∨ t.out.result = .message (.ioState new)) →
      t.block.ioState = new ∧
      (new.getLsbD n = s.block.ioState.getLsbD n →
        t.out.events.names (.change n) = false ∧ t.out.events.names (.rise n) = false ∧
        t.out.events.names (.fall n) = false ∧
        t.block.cells.get (.change n) = s.block.cells.get (.change n) ∧
        t.block.cells.get (.rise n) = s.block.cells.get (.rise n) ∧
        t.block.cells.get (.fall n) = s.block.cells.get (.fall n)) ∧
      (s.block.ioState.getLsbD n = false → new.getLsbD n = true →
        t.out.events.names (.change n) = true ∧ t.out.events.names (.rise n) = true ∧
        t.out.events.names (.fall n) = false ∧ t.block.cells.get (.fall n) = s.block.cells.get (.fall n)) ∧
      (s.block.ioState.getLsbD n = true → new.getLsbD n = false →
        t.out.events.names (.change n) = true ∧ t.out.events.names (.fall n) = true ∧
        t.out.events.names (.rise n) = false ∧ t.block.cells.get (.rise n) = s.block.cells.get (.rise n)) ∧
      t.out.events.change = t.out.events.rise ||| t.out.events.fall ∧
      t.out.events.rise &&& t.out.events.fall = 0

/-- R124, R123, over every operation: a signal the pulses name is latched exactly when somebody waits on it, a raise of a
set signal leaves it set, only `RX` pulses, and `RX` changes no cell that its pulses do not name. -/
def Obligations.RaisesLatchOnlyForWaiters : Prop :=
  ∀ (i : Instr) (s t : State) (c : Signal), exec i s = .next t →
    (t.out.events.names c = true → opClass i = .sessionWrite ∧
      (t.block.cells.get c).waiters = (s.block.cells.get c).waiters ∧
      ((t.block.cells.get c).flag = true ↔
        (s.block.cells.get c).flag = true ∨ 0 < (s.block.cells.get c).waiters)) ∧
    (t.out.events.names c = false → opClass i = .sessionWrite → t.block.cells.get c = s.block.cells.get c)

/-- R110: two IoState frames are two updates, each applied alone: the second sees the first's levels, and the pulses of
each are its own. -/
def Obligations.ReportsAreNeverMerged : Prop :=
  ∀ (s t u : State) (id id' : Ident) (p q : Payload) (now now' : Nat) (v w : Byte),
    exec (.rx id false 1 p now) s = .next t → t.out.result = .message (.ioState v) →
    exec (.rx id' false 1 q now') t = .next u → u.out.result = .message (.ioState w) →
      t.block.ioState = v ∧ t.block.prevState = s.block.ioState ∧
      t.out.events = ⟨s.block.ioState ^^^ v, ~~~s.block.ioState &&& v, s.block.ioState &&& ~~~v, false⟩ ∧
      u.block.ioState = w ∧ u.block.prevState = v ∧
      u.out.events = ⟨v ^^^ w, ~~~v &&& w, v &&& ~~~w, false⟩

/-! ## Signals and pins -/

/-- R63: which cell each signal number names; 25 to 31 name none. -/
def Obligations.SignalNumbersNameTheCells : Prop :=
  (∀ n : Fin 8, signalOf (BitVec.ofNat 5 n) = some (.rise n) ∧ signalOf (BitVec.ofNat 5 (8 + n)) = some (.fall n) ∧
    signalOf (BitVec.ofNat 5 (16 + n)) = some (.change n)) ∧
  signalOf 24 = some .alive ∧
  ∀ sig : SigNum, 24 < sig.toNat → signalOf sig = none

/-- R125: `WAIT.ENTER` counts one more waiter and leaves the flag; it is refused for a reserved number and on a full
counter (`2^WAITER_W - 1` waiters). -/
def Obligations.WaitEnterRegistersOneWaiter : Prop :=
  ∀ (s : State) (sig : SigNum),
    (24 < sig.toNat → exec (.waitEnter sig) s = .refused .reservedSignal) ∧
    ∀ c : Signal, signalOf sig = some c →
      ((∃ w, s.cfg.waiterW = some w ∧ (s.block.cells.get c).waiters = 2 ^ w - 1) →
        exec (.waitEnter sig) s = .refused .counterFull) ∧
      ((∀ w, s.cfg.waiterW = some w → (s.block.cells.get c).waiters < 2 ^ w - 1) →
        ∃ t, exec (.waitEnter sig) s = .next t ∧ s.sameBut t c ∧
          t.block.cells.get c = ⟨(s.block.cells.get c).flag, (s.block.cells.get c).waiters + 1⟩ ∧
          t.out = ⟨.none, Events.none⟩)

/-- R126: `WAIT.OBSERVE` completes one wait when the flag is 1, and the last waiter clears the flag; it is refused for a
reserved number and with no waiter; while the flag is 0 it answers `PENDING`, the polling form R126 allows (log 10). -/
def Obligations.WaitObserveCompletesOneWait : Prop :=
  ∀ (s : State) (sig : SigNum),
    (24 < sig.toNat → exec (.waitObserve sig) s = .refused .reservedSignal) ∧
    ∀ c : Signal, signalOf sig = some c →
      ((s.block.cells.get c).waiters = 0 → exec (.waitObserve sig) s = .refused .noWaiter) ∧
      (0 < (s.block.cells.get c).waiters → (s.block.cells.get c).flag = false →
        exec (.waitObserve sig) s = .next { s with out := ⟨.status .pending, Events.none⟩ }) ∧
      (0 < (s.block.cells.get c).waiters → (s.block.cells.get c).flag = true →
        ∃ t, exec (.waitObserve sig) s = .next t ∧ s.sameBut t c ∧
          t.block.cells.get c =
            (if (s.block.cells.get c).waiters = 1 then ⟨false, 0⟩ else ⟨true, (s.block.cells.get c).waiters - 1⟩) ∧
          t.out = ⟨.status .ok, Events.none⟩)

/-- R127: `WAIT.ABANDON` withdraws one waiter, set or not, and the last one clears the flag; it is refused for a reserved
number and with no waiter. -/
def Obligations.WaitAbandonWithdrawsOneWaiter : Prop :=
  ∀ (s : State) (sig : SigNum),
    (24 < sig.toNat → exec (.waitAbandon sig) s = .refused .reservedSignal) ∧
    ∀ c : Signal, signalOf sig = some c →
      ((s.block.cells.get c).waiters = 0 → exec (.waitAbandon sig) s = .refused .noWaiter) ∧
      (0 < (s.block.cells.get c).waiters →
        ∃ t, exec (.waitAbandon sig) s = .next t ∧ s.sameBut t c ∧
          t.block.cells.get c =
            (if (s.block.cells.get c).waiters = 1 then ⟨false, 0⟩
            else ⟨(s.block.cells.get c).flag, (s.block.cells.get c).waiters - 1⟩) ∧
          t.out = ⟨.none, Events.none⟩)

/-- R132's schedule, for any cell and any report: a task that enters a clear cell before the report observes it exactly
when the report raised the cell, and otherwise abandons; either way the cell is clear again. -/
def Obligations.EnteredTaskSeesExactlyTheRaise : Prop :=
  ∀ (s s1 s2 : State) (sig : SigNum) (c : Signal) (id : Ident) (rtr : Bool) (len : Len) (p : Payload) (now : Nat),
    signalOf sig = some c → s.block.cells.get c = ⟨false, 0⟩ →
    exec (.waitEnter sig) s = .next s1 → exec (.rx id rtr len p now) s1 = .next s2 →
      (s2.out.events.names c = true →
        ∃ s3, exec (.waitObserve sig) s2 = .next s3 ∧ s3.out.result = .status .ok ∧
          s3.block.cells.get c = ⟨false, 0⟩) ∧
      (s2.out.events.names c = false →
        exec (.waitObserve sig) s2 = .next { s2 with out := ⟨.status .pending, Events.none⟩ } ∧
        ∃ s3, exec (.waitAbandon sig) s2 = .next s3 ∧ s3.block.cells.get c = ⟨false, 0⟩)

/-- R130, R131, R145, R146: the register reads. -/
def Obligations.ReadsAnswerTheRegisters : Prop :=
  ∀ s : State,
    exec .rdIostate s = .next { s with out := ⟨.ioState s.block.ioState, Events.none⟩ } ∧
    (∀ n : BitVec 3, exec (.rdPin n) s = .next { s with
      out := ⟨.pin (s.block.ioState.getLsbD n.toNat) (s.block.prevState.getLsbD n.toNat), Events.none⟩ }) ∧
    (s.block.hbValid = false → exec .rdHb s = .next { s with out := ⟨.lastHeartbeat none, Events.none⟩ }) ∧
    (∀ r, s.block.lastHb = some r → exec .rdHb s = .next { s with out := ⟨.lastHeartbeat (some r.fields), Events.none⟩ }) ∧
    exec .rdNodeid s = .next { s with out := ⟨.nodeId s.cfg.nodeId, Events.none⟩ }

/-! ## Liveness and output -/

/-- After R140, with the strict comparison of R141: what `CHKALIVE` answers, in the order of its tests, for a `now` that
the port carries and that is not below an earlier step's of the session (R153, R168), and that nothing of the block
changes. That `now` is remembered beside the block, in `lastNow`, is the model's choice (log 8). -/
def Obligations.ChkaliveOutcomes : Prop :=
  ∀ (s : State) (now : Nat), (∀ w, s.cfg.timeW = some w → now < 2 ^ w) → (∀ n, s.lastNow = some n → n ≤ now) →
    (s.block.lastHb = none →
      exec (.chkalive now) s = .next { s with lastNow := some now, out := ⟨.status .noHeartbeat, Events.none⟩ }) ∧
    ∀ r, s.block.lastHb = some r →
      (now < r.time → exec (.chkalive now) s = .refused .timeBackwards) ∧
      (r.time ≤ now → s.cfg.aliveTicks < now - r.time →
        exec (.chkalive now) s =
          .next { s with lastNow := some now, out := ⟨.status .heartbeatTimeout, Events.none⟩ }) ∧
      (r.time ≤ now → now - r.time ≤ s.cfg.aliveTicks →
        exec (.chkalive now) s = .next { s with lastNow := some now, out := ⟨.status .ok, Events.none⟩ })

/-- After R142, R143: `SETOUT` propagates the liveness error with no frame, and otherwise answers the SetIoState frame of
this node; it changes nothing of the block, `io_state` included. Its `now` is one that the port carries and that is not
below an earlier step's of the session (R153, R168); that it is remembered beside the block, in `lastNow`, is the model's
choice (log 8). -/
def Obligations.SetoutOutcomes : Prop :=
  ∀ (s : State) (value : Byte) (now : Nat),
    (∀ w, s.cfg.timeW = some w → now < 2 ^ w) → (∀ n, s.lastNow = some n → n ≤ now) →
    (s.block.lastHb = none →
      exec (.setout value now) s =
        .next { s with lastNow := some now, out := ⟨.status .noHeartbeat, Events.none⟩ }) ∧
    ∀ r, s.block.lastHb = some r →
      (now < r.time → exec (.setout value now) s = .refused .timeBackwards) ∧
      (r.time ≤ now → s.cfg.aliveTicks < now - r.time →
        exec (.setout value now) s =
          .next { s with lastNow := some now, out := ⟨.status .heartbeatTimeout, Events.none⟩ }) ∧
      (r.time ≤ now → now - r.time ≤ s.cfg.aliveTicks → ∃ id : Ident, id.toNat = 32 * s.cfg.nodeId.toNat + 3 ∧
        exec (.setout value now) s =
          .next { s with
            lastNow := some now
            out := ⟨.frame ⟨id, false, 1, ⟨value, 0, 0, 0, 0, 0, 0, 0⟩⟩, Events.none⟩ })

/-- R144: `SETOUT` answers a frame exactly when `CHKALIVE` answers `OK`, and otherwise the same error, or the same
refusal. -/
def Obligations.SetoutAgreesWithChkalive : Prop :=
  ∀ (s : State) (value : Byte) (now : Nat),
    ((∃ t f, exec (.setout value now) s = .next t ∧ t.out.result = .frame f) ↔
      (∃ t, exec (.chkalive now) s = .next t ∧ t.out.result = .status .ok)) ∧
    (∀ st, st ≠ .ok → ((∃ t, exec (.setout value now) s = .next t ∧ t.out.result = .status st) ↔
      (∃ t, exec (.chkalive now) s = .next t ∧ t.out.result = .status st))) ∧
    (∀ r, exec (.setout value now) s = .refused r ↔ exec (.chkalive now) s = .refused r)

/-- A `now` that a finite `TIME_W` cannot carry is refused by the three operations that take one (the model's reading of
R168, log 9). -/
def Obligations.WideNowIsRefused : Prop :=
  ∀ (s : State) (w now : Nat), s.cfg.timeW = some w → 2 ^ w ≤ now →
    (∀ id rtr len p, exec (.rx id rtr len p now) s = .refused .timeTooWide) ∧
    (∀ value, exec (.setout value now) s = .refused .timeTooWide) ∧
    exec (.chkalive now) s = .refused .timeTooWide

/-! ## Reset -/

/-- R180, R23: what `RESET` leaves, from any state; no result is given (R62), no pulse is made, and a second `RESET`
changes nothing at all. The session's `now`, remembered beside the block, starts anew: the model's deduction (log 8). -/
def Obligations.ResetInitialisesTheSession : Prop :=
  ∀ s : State, ∃ t, exec .reset s = .next t ∧
    t.cfg = s.cfg ∧ t.pending = s.pending ∧ t.lastNow = none ∧
    t.block.ioState = s.cfg.ioReset ∧ t.block.prevState = s.cfg.ioReset ∧ t.block.lastHb = none ∧
    (∀ c : Signal, t.block.cells.get c = ⟨false, 0⟩) ∧
    t.out = ⟨.none, Events.none⟩ ∧
    exec .reset t = .next t

/-- R181: the waits pending at a `RESET`, one for each waiter of each cell, end as cancelled, and no other operation
cancels one. The account of them, kept beside the block and answered by no operation, is the model's choice (log 11). -/
def Obligations.ResetCancelsThePendingWaits : Prop :=
  (∀ s : State, ∃ t, exec .reset s = .next t ∧ t.out.result = .none ∧
    ∀ c : Signal, t.cancelledWaits.get c = s.cancelledWaits.get c + (s.block.cells.get c).waiters) ∧
  ∀ (i : Instr) (s t : State), exec i s = .next t → i ≠ .reset → t.cancelledWaits = s.cancelledWaits

/-- After a `RESET` the device is not alive at any time, and no output command is sent (R180's example, R157); nothing of
the block changes. That `now` is remembered beside the block, in `lastNow`, is the model's choice, and that `RESET` clears
it, so that any `now` may follow, its deduction (log 8; R153, R168). -/
def Obligations.AfterResetTheDeviceIsNotAlive : Prop :=
  ∀ (s t : State) (now : Nat) (value : Byte), exec .reset s = .next t → (∀ w, t.cfg.timeW = some w → now < 2 ^ w) →
    exec (.chkalive now) t = .next { t with lastNow := some now, out := ⟨.status .noHeartbeat, Events.none⟩ } ∧
    exec (.setout value now) t = .next { t with lastNow := some now, out := ⟨.status .noHeartbeat, Events.none⟩ }

/-- R62, R153: the code 0xF is refused. The second clause says so of the step whose issue has that code in lane 0, in the
model's lane layout and queue (logs 1 and 2). -/
def Obligations.ReservedCodeIsRefused : Prop :=
  (∀ s : State, exec .reservedCmd s = .refused .reservedCommand) ∧
  ∀ (s : State) (more : List Byte) (rest : List Issue), s.pending = ⟨.cmd, 0x0F :: more⟩ :: rest →
    step s = .refused .reservedCommand

/-- The machine's reset state is the block after `RESET` (R23), for the parameters of D29 (the model's choice, log 5),
with nothing issued and nothing shown (logs 1 and 4), no `now` seen and no wait cancelled (logs 8 and 11). -/
def Obligations.MachineResetState : Prop :=
  State.reset.block.ioState = State.reset.cfg.ioReset ∧ State.reset.block.prevState = State.reset.cfg.ioReset ∧
  State.reset.block.hbValid = false ∧ (∀ c : Signal, State.reset.block.cells.get c = ⟨false, 0⟩) ∧
  State.reset.lastNow = none ∧ (∀ c : Signal, State.reset.cancelledWaits.get c = 0) ∧
  State.reset.pending = [] ∧ State.reset.out = ⟨.none, Events.none⟩ ∧
  State.reset.cfg = ⟨1, 500, 1000, none, 0x00, none⟩

/-- R64: the codes of the ten statuses. -/
def Obligations.StatusCodesAreTheTable : Prop :=
  [Status.ok, .dropNode, .dropRtr, .unknownOpcode, .lengthMismatch, .unknownMessageType, .noHeartbeat,
    .heartbeatTimeout, .cancelled, .pending].map (fun st => st.code.toNat) = [0, 1, 2, 3, 4, 5, 6, 7, 8, 9]

/-! ## Time and hidden state, over every operation -/

/-- R168, R153, over every operation: within a session no step that runs carries a `now` below that of an earlier step; the
last one is remembered beside the block, in `lastNow`, and an operation without a `now` leaves it as it was (the model's
choice, log 8). That `RESET` forgets it is the model's deduction (log 8). -/
def Obligations.NowNeverDecreases : Prop :=
  ∀ (i : Instr) (s t : State), exec i s = .next t →
    (∀ now, timeOf i = some now → t.lastNow = some now ∧ ∀ n, s.lastNow = some n → n ≤ now) ∧
    (timeOf i = none → i ≠ .reset → t.lastNow = s.lastNow) ∧
    (i = .reset → t.lastNow = none)

/-- R21: no operation shows a count, and none but `WAIT.OBSERVE` a flag. From two states that agree in the parameters and
in the registers that are no cells, an operation that runs from both answers and pulses the same; for `WAIT.OBSERVE` the
flags are to agree as well. -/
def Obligations.CountsAndFlagsAreNotShown : Prop :=
  ∀ (i : Instr) (s s' t t' : State),
    s'.cfg = s.cfg → s'.block.ioState = s.block.ioState → s'.block.prevState = s.block.prevState →
    s'.block.lastHb = s.block.lastHb →
    ((∀ c : Signal, (s'.block.cells.get c).flag = (s.block.cells.get c).flag) ∨ ∀ sig, i ≠ .waitObserve sig) →
    exec i s = .next t → exec i s' = .next t' → t'.out = t.out
end

