-- ==== Sys2Proof/Laws/State.lean ====
section
/-! SUPPORT. The fields after each update of the state, and what a bank holds after each update of a bank. -/

namespace Sys2Proof.Machine

variable {α β : Type}

/-! ## Answers -/

@[simp] theorem answer_cfg (s : State) (r : Result) : (answer s r).cfg = s.cfg := rfl
@[simp] theorem answer_block (s : State) (r : Result) : (answer s r).block = s.block := rfl
@[simp] theorem answer_lastNow (s : State) (r : Result) : (answer s r).lastNow = s.lastNow := rfl
@[simp] theorem answer_cancelledWaits (s : State) (r : Result) : (answer s r).cancelledWaits = s.cancelledWaits := rfl
@[simp] theorem answer_pending (s : State) (r : Result) : (answer s r).pending = s.pending := rfl
@[simp] theorem answer_out (s : State) (r : Result) : (answer s r).out = ⟨r, Events.none⟩ := rfl

@[simp] theorem raiseError_cfg (s : State) (st : Status) : (raiseError s st).cfg = s.cfg := rfl
@[simp] theorem raiseError_block (s : State) (st : Status) : (raiseError s st).block = s.block := rfl
@[simp] theorem raiseError_lastNow (s : State) (st : Status) : (raiseError s st).lastNow = s.lastNow := rfl
@[simp] theorem raiseError_cancelledWaits (s : State) (st : Status) : (raiseError s st).cancelledWaits = s.cancelledWaits := rfl
@[simp] theorem raiseError_pending (s : State) (st : Status) : (raiseError s st).pending = s.pending := rfl
@[simp] theorem raiseError_out (s : State) (st : Status) : (raiseError s st).out = ⟨.status st, Events.none⟩ := rfl

/-! ## One cell replaced -/

@[simp] theorem setCell_cfg (s : State) (c : Signal) (v : Cell) : (setCell s c v).cfg = s.cfg := rfl
@[simp] theorem setCell_lastNow (s : State) (c : Signal) (v : Cell) : (setCell s c v).lastNow = s.lastNow := rfl
@[simp] theorem setCell_cancelledWaits (s : State) (c : Signal) (v : Cell) :
    (setCell s c v).cancelledWaits = s.cancelledWaits := rfl
@[simp] theorem setCell_pending (s : State) (c : Signal) (v : Cell) : (setCell s c v).pending = s.pending := rfl
@[simp] theorem setCell_out (s : State) (c : Signal) (v : Cell) : (setCell s c v).out = s.out := rfl
@[simp] theorem setCell_ioState (s : State) (c : Signal) (v : Cell) :
    (setCell s c v).block.ioState = s.block.ioState := rfl
@[simp] theorem setCell_prevState (s : State) (c : Signal) (v : Cell) :
    (setCell s c v).block.prevState = s.block.prevState := rfl
@[simp] theorem setCell_lastHb (s : State) (c : Signal) (v : Cell) :
    (setCell s c v).block.lastHb = s.block.lastHb := rfl
@[simp] theorem setCell_cells (s : State) (c : Signal) (v : Cell) :
    (setCell s c v).block.cells = s.block.cells.set c v := rfl

/-! ## Reset values -/

@[simp] theorem initial_ioState (v : Byte) : (Session.initial v).ioState = v := rfl
@[simp] theorem initial_prevState (v : Byte) : (Session.initial v).prevState = v := rfl
@[simp] theorem initial_lastHb (v : Byte) : (Session.initial v).lastHb = none := rfl
@[simp] theorem initial_cells (v : Byte) : (Session.initial v).cells = Bank.all Cell.clear := rfl

/-! ## Banks -/

@[simp] theorem bank_get_all (v : α) (c : Signal) : (Bank.all v).get c = v := by
  cases c <;> simp [Bank.all, Bank.get]

theorem zipEight_get {γ : Type} (f : α → β → γ) (v : Vector α 8) (w : Vector β 8) :
    ∀ n : Fin 8, (zipEight f v w)[n] = f v[n] w[n]
  | 0 | 1 | 2 | 3 | 4 | 5 | 6 | 7 => rfl

@[simp] theorem bank_get_zip {γ : Type} (f : α → β → γ) (a : Bank α) (b : Bank β) (c : Signal) :
    (a.zip f b).get c = f (a.get c) (b.get c) := by
  cases c
  case alive => rfl
  all_goals exact zipEight_get _ _ _ _

/-- Each cell's waits are added to those cancelled before (R181). -/
@[simp] theorem cancelWaits_get (n : Bank Nat) (cells : Bank Cell) (c : Signal) :
    (cancelWaits n cells).get c = n.get c + (cells.get c).waiters := bank_get_zip _ _ _ _

@[simp] theorem bank_get_set_self (b : Bank α) (c : Signal) (v : α) : (b.set c v).get c = v := by
  cases c <;> simp [Bank.set, Bank.get]

theorem bank_get_set_of_ne (b : Bank α) {c d : Signal} (v : α) (h : d ≠ c) : (b.set c v).get d = b.get d := by
  cases c <;> cases d <;> simp only [Bank.set, Bank.get] <;> first
    | rfl
    | (rename_i n m
       have hnm : (n : Nat) ≠ m := fun he => h (by rw [Fin.ext he])
       exact Vector.getElem_set_ne _ _ hnm)
    | exact absurd rfl h

/-- What a bank holds after one entry is replaced. -/
theorem bank_get_set (b : Bank α) (c d : Signal) (v : α) : (b.set c v).get d = if d = c then v else b.get d := by
  split
  · subst d; simp
  · exact bank_get_set_of_ne b v ‹_›

/-- Two banks that hold the same for every signal are equal. -/
theorem bank_ext {a b : Bank α} (h : ∀ c : Signal, a.get c = b.get c) : a = b := by
  obtain ⟨ar, af, ac, aa⟩ := a
  obtain ⟨br, bf, bc, ba⟩ := b
  have h1 : ar = br := Vector.ext fun i hi => h (.rise ⟨i, hi⟩)
  have h2 : af = bf := Vector.ext fun i hi => h (.fall ⟨i, hi⟩)
  have h3 : ac = bc := Vector.ext fun i hi => h (.change ⟨i, hi⟩)
  have h4 : aa = ba := h .alive
  subst h1 h2 h3 h4
  rfl

end Sys2Proof.Machine
end

