-- ==== Sys2Proof/Laws/Cells.lean ====
section
/-! SUPPORT. What each operation on a cell does, and what a pin update and a Heartbeat's dispatch do to every cell. -/

namespace Sys2Proof.Machine

/-! ## One cell -/

@[simp] theorem cell_raise_waiters (c : Cell) : c.raise.waiters = c.waiters := by
  unfold Cell.raise; split <;> rfl

/-- A raise sets the flag exactly when somebody waits (R124). -/
theorem cell_raise_flag (c : Cell) : c.raise.flag = (c.flag || decide (0 < c.waiters)) := by
  unfold Cell.raise; split <;> simp_all

/-- Raises merge (44_pin_signals.md R124, D11). -/
@[simp] theorem cell_raise_raise (c : Cell) : c.raise.raise = c.raise := by
  unfold Cell.raise; split <;> simp_all

@[simp] theorem cell_enter_flag (c : Cell) : c.enter.flag = c.flag := rfl
@[simp] theorem cell_enter_waiters (c : Cell) : c.enter.waiters = c.waiters + 1 := rfl

/-- One waiter fewer. -/
@[simp] theorem cell_leave_waiters (c : Cell) : c.leave.waiters = c.waiters - 1 := by
  unfold Cell.leave; split <;> simp_all

/-- The flag stays unless the last waiter left (R126, R127). -/
theorem cell_leave_flag (c : Cell) : c.leave.flag = (c.flag && decide (1 < c.waiters)) := by
  unfold Cell.leave
  split
  · have : ¬ 1 < c.waiters := by omega
    simp [this]
  · have : 1 < c.waiters := by omega
    simp [this]

/-- A counter that is not full can take one more waiter. -/
theorem cell_not_full {w : Nat} {c : Cell} (h : c.full (some w) = false) : c.waiters + 1 < 2 ^ w := by
  simp only [Cell.full, decide_eq_false_iff_not] at h
  omega

/-! ## Raises -/

/-- One raise changes one cell. -/
theorem raiseSignal_get (b : Bank Cell) (c d : Signal) :
    (raiseSignal b c).get d = if d = c then (b.get d).raise else b.get d := by
  unfold raiseSignal
  rw [bank_get_set]
  split
  · subst d; rfl
  · rfl

theorem changed_bit (old new : Byte) (n : Fin 8) :
    (changedPins old new).getLsbD n = (old.getLsbD n ^^ new.getLsbD n) := by
  simp [changedPins]

theorem risen_bit (old new : Byte) (n : Fin 8) :
    (risenPins old new).getLsbD n = (!old.getLsbD n && new.getLsbD n) := by
  simp [risenPins]

theorem fallen_bit (old new : Byte) (n : Fin 8) :
    (fallenPins old new).getLsbD n = (old.getLsbD n && !new.getLsbD n) := by
  simp [fallenPins]

/-- The pin a signal belongs to. -/
def Signal.pin? : Signal → Option (Fin 8)
  | .rise n => some n
  | .fall n => some n
  | .change n => some n
  | .alive => none

/-- The raises of one pin change the cells of that pin which the pulses name, and no others. -/
theorem raisePin_get (old new : Byte) (b : Bank Cell) (n : Fin 8) (c : Signal) :
    (raisePin old new b n).get c =
      if (edgeEvents old new).names c = true ∧ c.pin? = some n then (b.get c).raise else b.get c := by
  have hc := changed_bit old new n
  have hr := risen_bit old new n
  have hf := fallen_bit old new n
  unfold raisePin
  cases c with
  | alive =>
    have hp : (Signal.alive).pin? ≠ some n := nofun
    have hneg : ¬((edgeEvents old new).names .alive = true ∧ (Signal.alive).pin? = some n) := fun h => hp h.2
    rw [if_neg hneg]
    split
    · split <;> simp [raiseSignal_get]
    · rfl
  | rise m =>
    simp only [Events.names, edgeEvents, Signal.pin?, Option.some.injEq]
    by_cases hm : m = n
    · subst m
      cases ho : old.getLsbD n <;> cases hn : new.getLsbD n <;> simp_all [raiseSignal_get]
    · split <;> (try split) <;> simp_all [raiseSignal_get]
  | fall m =>
    simp only [Events.names, edgeEvents, Signal.pin?, Option.some.injEq]
    by_cases hm : m = n
    · subst m
      cases ho : old.getLsbD n <;> cases hn : new.getLsbD n <;> simp_all [raiseSignal_get]
    · split <;> (try split) <;> simp_all [raiseSignal_get]
  | change m =>
    simp only [Events.names, edgeEvents, Signal.pin?, Option.some.injEq]
    by_cases hm : m = n
    · subst m
      cases ho : old.getLsbD n <;> cases hn : new.getLsbD n <;> simp_all [raiseSignal_get]
    · split <;> (try split) <;> simp_all [raiseSignal_get]

theorem foldl_raisePin_get (old new : Byte) (c : Signal) (l : List (Fin 8)) (b : Bank Cell) :
    (l.foldl (raisePin old new) b).get c =
      if (edgeEvents old new).names c = true ∧ ∃ n ∈ l, c.pin? = some n then (b.get c).raise else b.get c := by
  induction l generalizing b with
  | nil => simp
  | cons n l ih =>
    simp only [List.foldl_cons, ih, raisePin_get, List.mem_cons, exists_eq_or_imp]
    by_cases hn : (edgeEvents old new).names c = true <;> by_cases hp : c.pin? = some n <;>
      by_cases hl : ∃ m ∈ l, c.pin? = some m <;> simp only [hn, hp, hl] <;> simp

/-- The raises of a pin update: every cell the pulses name is raised, every other is as it was (R120, R123). -/
theorem raisePins_get (old new : Byte) (b : Bank Cell) (c : Signal) :
    (raisePins old new b).get c = if (edgeEvents old new).names c then (b.get c).raise else b.get c := by
  unfold raisePins
  rw [foldl_raisePin_get]
  have hall : ∀ n : Fin 8, n ∈ ([0, 1, 2, 3, 4, 5, 6, 7] : List (Fin 8)) := by decide
  cases c with
  | alive => simp [Signal.pin?, Events.names, edgeEvents]
  | rise n => simp only [Signal.pin?, Option.some.injEq, exists_eq_right', hall, and_true]
  | fall n => simp only [Signal.pin?, Option.some.injEq, exists_eq_right', hall, and_true]
  | change n => simp only [Signal.pin?, Option.some.injEq, exists_eq_right', hall, and_true]

/-! ## The pin update and the Heartbeat's dispatch -/

@[simp] theorem pinUpdate_ioState (b : Session) (v : Byte) : (pinUpdate b v).ioState = v := rfl
@[simp] theorem pinUpdate_prevState (b : Session) (v : Byte) : (pinUpdate b v).prevState = b.ioState := rfl
@[simp] theorem pinUpdate_lastHb (b : Session) (v : Byte) : (pinUpdate b v).lastHb = b.lastHb := rfl
theorem pinUpdate_cell (b : Session) (v : Byte) (c : Signal) :
    (pinUpdate b v).cells.get c =
      if (edgeEvents b.ioState v).names c then (b.cells.get c).raise else b.cells.get c :=
  raisePins_get _ _ _ _

@[simp] theorem recordHeartbeat_ioState (b : Session) (h : Heartbeat) (now : Nat) :
    (recordHeartbeat b h now).ioState = h.ioState := rfl
@[simp] theorem recordHeartbeat_prevState (b : Session) (h : Heartbeat) (now : Nat) :
    (recordHeartbeat b h now).prevState = b.ioState := rfl
@[simp] theorem recordHeartbeat_lastHb (b : Session) (h : Heartbeat) (now : Nat) :
    (recordHeartbeat b h now).lastHb = some ⟨h, now⟩ := rfl

/-- A Heartbeat raises what its pulses name: the edges of its pins, and `alive` (R106). -/
theorem recordHeartbeat_cell (b : Session) (h : Heartbeat) (now : Nat) (c : Signal) :
    (recordHeartbeat b h now).cells.get c =
      if ({ edgeEvents b.ioState h.ioState with alive := true } : Events).names c then (b.cells.get c).raise
      else b.cells.get c := by
  show (raiseSignal (raisePins b.ioState h.ioState b.cells) .alive).get c = _
  rw [raiseSignal_get]
  cases c <;> simp [raisePins_get, Events.names, edgeEvents]

end Sys2Proof.Machine
end

