-- ==== Sys2Proof/Laws/Decode.lean ====
section
/-! SUPPORT. What each lane reader answers on the lanes the encoder writes. -/

namespace Sys2Proof

theorem lane_of_getElem? {ls : List Byte} {k : Nat} {b : Byte} (h : ls[k]? = some b) : lane ls k = .ok b := by
  simp [lane, h]

theorem narrow_of_lt {w v : Nat} {e : DecodeError} (h : v < 2 ^ w) : narrow w e v = .ok (BitVec.ofNat w v) := by
  simp [narrow, h]

theorem narrow_of_le {w v : Nat} {e : DecodeError} (h : 2 ^ w ≤ v) : narrow w e v = .error e := by
  simp [narrow, Nat.not_lt.mpr h]

/-- A field of at most 8 bits comes back from its lane. -/
theorem field_of_fieldLane {w : Nat} {e : DecodeError} {ls : List Byte} {k : Nat} (v : BitVec w) (hw : w ≤ 8)
    (h : ls[k]? = some (fieldLane v)) : field w e ls k = .ok v := by
  have hv : (fieldLane v).toNat = v.toNat := by
    have := v.isLt
    have : v.toNat < 2 ^ 8 := lt_of_lt_of_le this (Nat.pow_le_pow_right (by decide) hw)
    simpa [fieldLane] using this
  simp [field, lane_of_getElem? h, bind, Except.bind, hv, narrow_of_lt v.isLt]

/-- A lane that is too wide for its field is refused. -/
theorem field_of_wide {w : Nat} {e : DecodeError} {ls : List Byte} {k : Nat} {b : Byte} (h : ls[k]? = some b)
    (hb : 2 ^ w ≤ b.toNat) : field w e ls k = .error e := by
  simp [field, lane_of_getElem? h, bind, Except.bind, narrow_of_le hb]

theorem identLanes_value (id : Ident) :
    ((fieldLane (id.extractLsb' 8 3) : Byte) ++ (id.extractLsb' 0 8 : Byte)).toNat = id.toNat := by
  have h : (fieldLane (id.extractLsb' 8 3) : Byte) ++ (id.extractLsb' 0 8 : Byte) = id.setWidth 16 := by
    apply BitVec.eq_of_getLsbD_eq
    intro i hi
    simp only [fieldLane, BitVec.getLsbD_append, BitVec.getLsbD_setWidth, BitVec.getLsbD_extractLsb']
    by_cases h8 : i < 8
    · simp [h8, hi]
    · by_cases h11 : i < 11
      · have : i - 8 < 3 := by omega
        have h2 : 8 + (i - 8) = i := by omega
        simp [h8, hi, this, h2]
        omega
      · have : ¬ i - 8 < 3 := by omega
        simp [h8, this]
        intro; exact BitVec.getLsbD_of_ge _ _ (by omega)
  rw [h]
  have := id.isLt
  simp only [BitVec.toNat_setWidth]
  omega

/-- An identifier comes back from its two lanes. -/
theorem identField_of_identLanes {ls : List Byte} {k : Nat} (id : Ident)
    (h0 : ls[k]? = some (id.extractLsb' 0 8)) (h1 : ls[k + 1]? = some (fieldLane (id.extractLsb' 8 3))) :
    identField ls k = .ok id := by
  simp only [identField, lane_of_getElem? h0, lane_of_getElem? h1, bind, Except.bind, identLanes_value]
  rw [narrow_of_lt id.isLt]
  simp

/-- A 32-bit pattern comes back from its four lanes. -/
theorem word32Field_of_word32Lanes {ls : List Byte} {k : Nat} (v : Word32)
    (h0 : ls[k]? = some (v.extractLsb' 0 8)) (h1 : ls[k + 1]? = some (v.extractLsb' 8 8))
    (h2 : ls[k + 2]? = some (v.extractLsb' 16 8)) (h3 : ls[k + 3]? = some (v.extractLsb' 24 8)) :
    word32Field ls k = .ok v := by
  simp only [word32Field, lane_of_getElem? h0, lane_of_getElem? h1, lane_of_getElem? h2, lane_of_getElem? h3, bind,
    Except.bind, Except.ok.injEq]
  apply BitVec.eq_of_getLsbD_eq
  intro i hi
  simp only [BitVec.getLsbD_append, BitVec.getLsbD_extractLsb']
  split
  · simp_all
  · split
    · have : 8 + (i - 8) = i := by omega
      simp_all
    · split
      · have : 16 + (i - 8 - 8) = i := by omega
        simp_all
      · have : 24 + (i - 8 - 8 - 8) = i := by omega
        have : i - 8 - 8 - 8 < 8 := by omega
        simp_all

/-- The payload lanes come back. -/
theorem payloadField_of_payloadLanes {ls : List Byte} {k : Nat} (p : Payload)
    (h0 : ls[k]? = some p.b0) (h1 : ls[k + 1]? = some p.b1) (h2 : ls[k + 2]? = some p.b2) (h3 : ls[k + 3]? = some p.b3)
    (h4 : ls[k + 4]? = some p.b4) (h5 : ls[k + 5]? = some p.b5) (h6 : ls[k + 6]? = some p.b6)
    (h7 : ls[k + 7]? = some p.b7) : payloadField ls k = .ok p := by
  simp [payloadField, lane_of_getElem? h0, lane_of_getElem? h1, lane_of_getElem? h2, lane_of_getElem? h3,
    lane_of_getElem? h4, lane_of_getElem? h5, lane_of_getElem? h6, lane_of_getElem? h7, bind, Except.bind]

/-- The bundle's lanes come back. -/
theorem bundleField_of_bundleLanes (c n : Byte) (m : Bundle) : bundleField (c :: n :: bundleLanes m) 2 = .ok m := by
  have htag : field 5 .wideOpcode (c :: n :: bundleLanes m) 2 = .ok m.tag := field_of_fieldLane m.tag (by decide) rfl
  have hval : word32Field (c :: n :: bundleLanes m) 9 = .ok m.value :=
    word32Field_of_word32Lanes m.value rfl rfl rfl rfl
  have h3 : lane (c :: n :: bundleLanes m) 3 = .ok m.ioState := rfl
  have h4 : lane (c :: n :: bundleLanes m) 4 = .ok m.deviceType := rfl
  have h5 : lane (c :: n :: bundleLanes m) 5 = .ok m.ioDir := rfl
  have h6 : lane (c :: n :: bundleLanes m) 6 = .ok m.errors := rfl
  have h7 : lane (c :: n :: bundleLanes m) 7 = .ok m.counter := rfl
  have h8 : lane (c :: n :: bundleLanes m) 8 = .ok m.paramId := rfl
  simp [bundleField, htag, hval, h3, h4, h5, h6, h7, h8, bind, Except.bind]

theorem natOfLanes_lanesOfNatFuel (fuel n : Nat) (h : n ≤ fuel) : natOfLanes (lanesOfNatFuel fuel n) = n := by
  induction fuel generalizing n with
  | zero => simp [lanesOfNatFuel, natOfLanes]; omega
  | succ fuel ih =>
    unfold lanesOfNatFuel
    split
    · simp_all [natOfLanes]
    · have : n / 256 ≤ fuel := by omega
      simp only [natOfLanes, ih _ this, BitVec.toNat_ofNat]
      omega

/-- A natural comes back from its lanes. -/
theorem natOfLanes_lanesOfNat (n : Nat) : natOfLanes (lanesOfNat n) = n := natOfLanes_lanesOfNatFuel n n le_rfl

/-- The node half of an identifier that was put together. -/
theorem Ident.node_mk (node : NodeId) (op : Opcode) : Ident.node (Ident.mk node op) = node := by
  apply BitVec.eq_of_getLsbD_eq
  intro i hi
  have h : (Ident.mk node op).getLsbD (5 + i) = node.getLsbD i := by
    unfold Ident.mk
    rw [show (node ++ op : BitVec (6 + 5)).getLsbD (5 + i) = _ from BitVec.getLsbD_append]
    simp
  simp only [Ident.node, BitVec.getLsbD_extractLsb', hi, decide_true, Bool.true_and, h]

/-- The opcode half of an identifier that was put together. -/
theorem Ident.opcode_mk (node : NodeId) (op : Opcode) : Ident.opcode (Ident.mk node op) = op := by
  apply BitVec.eq_of_getLsbD_eq
  intro i hi
  have h : (Ident.mk node op).getLsbD (0 + i) = op.getLsbD i := by
    unfold Ident.mk
    rw [show (node ++ op : BitVec (6 + 5)).getLsbD (0 + i) = _ from BitVec.getLsbD_append]
    simp [hi]
  simp only [Ident.opcode, BitVec.getLsbD_extractLsb', hi, decide_true, Bool.true_and, h]

/-- What the transmit port reads from an identifier's lanes. -/
theorem identField_txIssue (node : NodeId) (op : Opcode) (rest : List Byte) :
    identField (identLanes (Ident.mk node op) ++ rest) 0 = .ok (Ident.mk node op) :=
  identField_of_identLanes _ rfl rfl

end Sys2Proof
end

