-- ==== Sys2Proof/Laws/Codec.lean ====
section
/-! SUPPORT. What the identifier functions, the payload primitives and the message decoder answer. -/

namespace Sys2Proof.Machine

/-! ## Identifiers -/

/-- The two fields occupy disjoint bits, so the OR is a sum (46_laws_control_system.md R200). -/
theorem genId_toNat (node : NodeId) (op : Opcode) : (genId node op).toNat = 32 * node.toNat + op.toNat := by
  have hn := node.isLt
  have ho := op.isLt
  have h1 : node.toNat % 2048 = node.toNat := by omega
  have h2 : op.toNat % 2048 = op.toNat := by omega
  have h3 : (node.toNat * 32) % 2048 = node.toNat * 32 := by omega
  simp only [genId, BitVec.toNat_or, BitVec.toNat_shiftLeft, BitVec.toNat_setWidth, Nat.shiftLeft_eq, h1, h2, h3,
    Nat.reducePow]
  rw [Nat.mul_comm node.toNat 32, show (32 : Nat) = 2 ^ 5 by rfl]
  exact (Nat.two_pow_add_eq_or_of_lt ho node.toNat).symm

/-- The node half is the quotient by 32 (R71, R200). -/
theorem splitNode_toNat (id : Ident) : (splitNode id).toNat = id.toNat / 32 := by
  have := id.isLt
  simp only [splitNode, BitVec.toNat_setWidth, BitVec.toNat_ushiftRight, Nat.shiftRight_eq_div_pow]
  omega

/-- The opcode half is the remainder by 32 (R71, R200). -/
theorem splitOpcode_toNat (id : Ident) : (splitOpcode id).toNat = id.toNat % 32 := by
  have h : id.toNat &&& 31 = id.toNat % 32 := Nat.and_two_pow_sub_one_eq_mod id.toNat 5
  have : id.toNat % 32 < 32 := Nat.mod_lt _ (by decide)
  simp only [splitOpcode, BitVec.toNat_setWidth, BitVec.toNat_and, BitVec.toNat_ofNat]
  rw [show (31 % 2 ^ 11 : Nat) = 31 by rfl, h]
  omega

@[simp] theorem splitNode_genId (node : NodeId) (op : Opcode) : splitNode (genId node op) = node := by
  apply BitVec.eq_of_toNat_eq
  rw [splitNode_toNat, genId_toNat]
  have := op.isLt
  omega

@[simp] theorem splitOpcode_genId (node : NodeId) (op : Opcode) : splitOpcode (genId node op) = op := by
  apply BitVec.eq_of_toNat_eq
  rw [splitOpcode_toNat, genId_toNat]
  have := op.isLt
  omega

@[simp] theorem genId_split (id : Ident) : genId (splitNode id) (splitOpcode id) = id := by
  apply BitVec.eq_of_toNat_eq
  rw [genId_toNat, splitNode_toNat, splitOpcode_toNat]
  omega

/-- The node filter compares the quotient by 32 (43_intake_dispatch.md R101). -/
theorem splitNode_eq_iff {id : Ident} {node : NodeId} : splitNode id = node ↔ id.toNat / 32 = node.toNat := by
  constructor
  · rintro rfl
    exact (splitNode_toNat _).symm
  · intro h
    apply BitVec.eq_of_toNat_eq
    rw [splitNode_toNat, h]

/-! ## The payload -/

/-- A byte written is the byte read; the others are as they were (20_memory.md R35, R36). -/
theorem byte_setByte (p : Payload) (off k : Nat) (v : Byte) (ho : off < 8) (hk : k < 8) :
    Payload.byte (Payload.setByte p off v) k = if k = off then v else Payload.byte p k := by
  have h1 : off = 0 ∨ off = 1 ∨ off = 2 ∨ off = 3 ∨ off = 4 ∨ off = 5 ∨ off = 6 ∨ off = 7 := by omega
  have h2 : k = 0 ∨ k = 1 ∨ k = 2 ∨ k = 3 ∨ k = 4 ∨ k = 5 ∨ k = 6 ∨ k = 7 := by omega
  rcases h1 with rfl | rfl | rfl | rfl | rfl | rfl | rfl | rfl <;>
    rcases h2 with rfl | rfl | rfl | rfl | rfl | rfl | rfl | rfl <;> rfl

/-- Four slices of a 32-bit pattern, put together again (R36, R35). -/
theorem word32_of_slices (v : Word32) :
    (v.extractLsb' 24 8 ++ v.extractLsb' 16 8 ++ v.extractLsb' 8 8 ++ v.extractLsb' 0 8 : BitVec (8 + 8 + 8 + 8)) = v := by
  apply BitVec.eq_of_getLsbD_eq
  intro i hi
  simp only [BitVec.getLsbD_append, BitVec.getLsbD_extractLsb']
  split
  · simp_all
  · split
    · have : 8 + (i - 8) = i := by omega
      simp_all
    · split
      · have : 16 + (i - 8 - 8) = i := by omega
        simp_all
      · have : 24 + (i - 8 - 8 - 8) = i := by omega
        have : i - 8 - 8 - 8 < 8 := by omega
        simp_all

/-- Four bytes put together sum up to the pattern, the first the least significant (20_memory.md R31). -/
theorem word32_of_bytes_toNat (b0 b1 b2 b3 : Byte) :
    (b3 ++ b2 ++ b1 ++ b0 : Word32).toNat =
      b0.toNat + 2 ^ 8 * b1.toNat + 2 ^ 16 * b2.toNat + 2 ^ 24 * b3.toNat := by
  have e : ∀ {w : Nat} (x : BitVec w) (y : Byte), (x ++ y).toNat = x.toNat * 256 + y.toNat := by
    intro w x y
    rw [BitVec.toNat_append, ← Nat.shiftLeft_add_eq_or_of_lt y.isLt, Nat.shiftLeft_eq]
  have : (b3 ++ b2 ++ b1 ++ b0 : BitVec (8 + 8 + 8 + 8)).toNat =
      ((b3.toNat * 256 + b2.toNat) * 256 + b1.toNat) * 256 + b0.toNat := by rw [e, e, e]
  exact this.trans (by omega)

/-- The slices of four bytes put together are the bytes. -/
theorem slices_of_bytes (b0 b1 b2 b3 : Byte) :
    (b3 ++ b2 ++ b1 ++ b0 : Word32).extractLsb' 0 8 = b0 ∧ (b3 ++ b2 ++ b1 ++ b0 : Word32).extractLsb' 8 8 = b1 ∧
    (b3 ++ b2 ++ b1 ++ b0 : Word32).extractLsb' 16 8 = b2 ∧ (b3 ++ b2 ++ b1 ++ b0 : Word32).extractLsb' 24 8 = b3 := by
  have h := word32_of_bytes_toNat b0 b1 b2 b3
  have h0 := b0.isLt
  have h1 := b1.isLt
  have h2 := b2.isLt
  have h3 := b3.isLt
  refine ⟨?_, ?_, ?_, ?_⟩ <;>
    (apply BitVec.eq_of_toNat_eq
     rw [BitVec.extractLsb'_toNat, Nat.shiftRight_eq_div_pow, h]
     omega)

/-- `MemRead` of one byte answers where its precondition holds (R35). -/
theorem memRead8_of_le {len off : Nat} {p : Payload} (h : off + 1 ≤ len) (h8 : off + 1 ≤ 8) :
    memRead8 len p off = some (Payload.byte p off) := by simp [memRead8, h, h8]

/-- `MemRead` of four bytes answers where its precondition holds, little-endian (R35). -/
theorem memRead32_of_le {len off : Nat} {p : Payload} (h : off + 4 ≤ len) (h8 : off + 4 ≤ 8) :
    memRead32 len p off =
      some (Payload.byte p (off + 3) ++ Payload.byte p (off + 2) ++ Payload.byte p (off + 1) ++ Payload.byte p off) := by
  simp [memRead32, h, h8]

/-! ## The message decoder -/

/-- Which opcodes select a variant, and of what size (30_encoding.md R56). -/
theorem messageSize_cases (op : Opcode) :
    (5 < op.toNat ∧ messageSize op = none) ∨
    ((op = 0 ∨ op = 2 ∨ op = 3 ∨ op = 5) ∧ messageSize op = some 1) ∨
    ((op = 1 ∨ op = 4) ∧ messageSize op = some 5) := by
  revert op
  decide

/-- A payload of the variant's own size reads as a message: every `MemRead` is inside it (R35, R91). -/
theorem readMessage_of_size {op : Opcode} {size : Nat} (h : messageSize op = some size) (p : Payload) :
    ∃ m, readMessage op size p = some m := by
  rcases messageSize_cases op with ⟨-, hn⟩ | ⟨ho, hs⟩ | ⟨ho, hs⟩
  · rw [hn] at h; cases h
  · rw [hs] at h; cases h
    rcases ho with rfl | rfl | rfl | rfl <;> exact ⟨_, rfl⟩
  · rw [hs] at h; cases h
    rcases ho with rfl | rfl <;> exact ⟨_, rfl⟩

/-- Everything `DEC` can answer (42_decode.md R90, R91). -/
theorem decodeFrame_cases (id : Ident) (len : Len) (data : Payload) :
    (messageSize (splitOpcode id) = none ∧ decodeFrame id len data = .error .unknownOpcode) ∨
    (∃ size, messageSize (splitOpcode id) = some size ∧ len.toNat ≠ size ∧
      decodeFrame id len data = .error .lengthMismatch) ∨
    (∃ m, messageSize (splitOpcode id) = some len.toNat ∧ readMessage (splitOpcode id) len.toNat data = some m ∧
      decodeFrame id len data = .ok (some m)) := by
  unfold decodeFrame
  cases h : messageSize (splitOpcode id) with
  | none => exact .inl ⟨rfl, rfl⟩
  | some size =>
    by_cases hl : len.toNat = size
    · obtain ⟨m, hm⟩ := readMessage_of_size h data
      subst hl
      exact .inr (.inr ⟨m, rfl, hm, by simp [hm]⟩)
    · exact .inr (.inl ⟨size, rfl, hl, by simp [hl]⟩)

/-- `DEC` never reads outside the payload. -/
theorem decodeFrame_ne_none (id : Ident) (len : Len) (data : Payload) : decodeFrame id len data ≠ .ok none := by
  rcases decodeFrame_cases id len data with ⟨-, h⟩ | ⟨_, -, -, h⟩ | ⟨_, -, -, h⟩ <;> rw [h] <;> nofun

/-- `DEC` looks at the opcode half of the identifier only (R90). -/
theorem decodeFrame_congr {id id' : Ident} (h : splitOpcode id = splitOpcode id') (len : Len) (data : Payload) :
    decodeFrame id len data = decodeFrame id' len data := by
  unfold decodeFrame
  rw [h]

end Sys2Proof.Machine
end

