-- ==== Sys2Proof/Laws/Exec.lean ====
section
/-! SUPPORT. What each shared operation, and each meaning with more than one outcome, can do when it answers a next
state: one inversion lemma each. -/

namespace Sys2Proof.Machine

/-- The results of `DEC`: an error status, or a message. -/
theorem reportDecoded_next {s t : State} {d : Except Status (Option Message)} (h : reportDecoded s d = .next t) :
    (∃ st, d = .error st ∧ t = raiseError s st) ∨ (∃ m, d = .ok (some m) ∧ t = answer s (.message m)) := by
  match d with
  | .error st => exact .inl ⟨st, rfl, by cases h; rfl⟩
  | .ok none => cases h
  | .ok (some m) => exact .inr ⟨m, rfl, by cases h; rfl⟩

/-- `DEC` answers a next state for every frame (R90: "`DEC` is total"). -/
theorem reportDecoded_total (s : State) (id : Ident) (len : Len) (data : Payload) :
    ∃ r, reportDecoded s (decodeFrame id len data) = .next (answer s r) := by
  rcases decodeFrame_cases id len data with ⟨-, h⟩ | ⟨_, -, -, h⟩ | ⟨m, -, -, h⟩
  · exact ⟨.status .unknownOpcode, by rw [h]; rfl⟩
  · exact ⟨.status .lengthMismatch, by rw [h]; rfl⟩
  · exact ⟨.message m, by rw [h]; rfl⟩

/-! ## The time operand -/

@[simp] theorem noted_cfg (s : State) (i : Instr) : (s.noted i).cfg = s.cfg := rfl
@[simp] theorem noted_block (s : State) (i : Instr) : (s.noted i).block = s.block := rfl
@[simp] theorem noted_lastNow (s : State) (i : Instr) : (s.noted i).lastNow = (timeOf i).or s.lastNow := rfl
@[simp] theorem noted_cancelledWaits (s : State) (i : Instr) : (s.noted i).cancelledWaits = s.cancelledWaits := rfl
@[simp] theorem noted_pending (s : State) (i : Instr) : (s.noted i).pending = s.pending := rfl
@[simp] theorem noted_out (s : State) (i : Instr) : (s.noted i).out = s.out := rfl

/-- An operation without a `now` operand leaves nothing to remember. -/
theorem noted_of_none {i : Instr} (h : timeOf i = none) (s : State) : s.noted i = s := by
  simp [State.noted, h]

theorem timeFits_iff {timeW : Option Nat} {now : Nat} :
    timeFits timeW now = true ↔ ∀ w, timeW = some w → now < 2 ^ w := by
  cases timeW <;> simp [timeFits]

theorem beforeLastNow_eq_false_iff {lastNow : Option Nat} {now : Nat} :
    beforeLastNow lastNow now = false ↔ ∀ n, lastNow = some n → n ≤ now := by
  cases lastNow <;> simp [beforeLastNow]

theorem beforeLastHb_eq_false_iff {b : Session} {now : Nat} :
    beforeLastHb b now = false ↔ ∀ r, b.lastHb = some r → r.time ≤ now := by
  unfold beforeLastHb
  cases b.lastHb <;> simp

/-- An operation whose `now` may be issued runs, on the state that remembers it (R153, R168). -/
theorem withTime_of_admits {s : State} {now : Nat} (h : s.admits now) (k : State → Host.Outcome State Fault Refusal) :
    withTime s now k = k { s with lastNow := some now } := by
  simp [withTime, timeFits_iff.mpr h.fits, beforeLastNow_eq_false_iff.mpr h.steps,
    beforeLastHb_eq_false_iff.mpr h.heartbeat]

/-- An operation that reads `now` goes on only with a `now` that may be issued. -/
theorem withTime_next {s t : State} {now : Nat} {k : State → Host.Outcome State Fault Refusal}
    (h : withTime s now k = .next t) : s.admits now ∧ k { s with lastNow := some now } = .next t := by
  unfold withTime at h
  split at h
  · split at h
    · cases h
    · rename_i hf hb
      simp only [Bool.or_eq_true, not_or, Bool.not_eq_true] at hb
      exact ⟨⟨timeFits_iff.mp hf, beforeLastNow_eq_false_iff.mp hb.1, beforeLastHb_eq_false_iff.mp hb.2⟩, h⟩
  · cases h

/-! ## The meanings -/

/-- A `WAIT.*` operation goes on only on a cell. -/
theorem onSignal_next {sig : SigNum} {k : Signal → Host.Outcome State Fault Refusal} {t : State}
    (h : onSignal sig k = .next t) : ∃ c, signalOf sig = some c ∧ k c = .next t := by
  unfold onSignal at h
  cases hs : signalOf sig with
  | none => rw [hs] at h; cases h
  | some c => rw [hs] at h; exact ⟨c, rfl, h⟩

/-- `WAIT.ENTER` on a cell. -/
theorem execWaitEnter_next {sig : SigNum} {s t : State} (h : execWaitEnter sig s = .next t) :
    ∃ c, signalOf sig = some c ∧ (s.block.cells.get c).full s.cfg.waiterW = false ∧
      t = answer (setCell s c (s.block.cells.get c).enter) .none := by
  obtain ⟨c, hc, hk⟩ := onSignal_next h
  split at hk
  · cases hk
  · exact ⟨c, hc, by simp_all, by cases hk; rfl⟩

/-- `WAIT.OBSERVE` on a cell: observed, or pending. -/
theorem execWaitObserve_next {sig : SigNum} {s t : State} (h : execWaitObserve sig s = .next t) :
    ∃ c, signalOf sig = some c ∧ (s.block.cells.get c).waiters ≠ 0 ∧
      (((s.block.cells.get c).flag = true ∧ t = answer (setCell s c (s.block.cells.get c).leave) (.status .ok)) ∨
        ((s.block.cells.get c).flag = false ∧ t = raiseError s .pending)) := by
  obtain ⟨c, hc, hk⟩ := onSignal_next h
  split at hk
  · cases hk
  · split at hk
    · exact ⟨c, hc, ‹_›, .inl ⟨‹_›, by cases hk; rfl⟩⟩
    · exact ⟨c, hc, ‹_›, .inr ⟨by simp_all, by cases hk; rfl⟩⟩

/-- `WAIT.ABANDON` on a cell. -/
theorem execWaitAbandon_next {sig : SigNum} {s t : State} (h : execWaitAbandon sig s = .next t) :
    ∃ c, signalOf sig = some c ∧ (s.block.cells.get c).waiters ≠ 0 ∧
      t = answer (setCell s c (s.block.cells.get c).leave) .none := by
  obtain ⟨c, hc, hk⟩ := onSignal_next h
  split at hk
  · cases hk
  · exact ⟨c, hc, ‹_›, by cases hk; rfl⟩

/-- Dispatch: a Heartbeat, an IoState, or a message that changes nothing. -/
theorem dispatch_cases (m : Message) (now : Nat) (s : State) :
    (∃ hb, m = .heartbeat hb ∧
      dispatch m now s = { s with
        block := recordHeartbeat s.block hb now
        out := ⟨.message m, { edgeEvents s.block.ioState hb.ioState with alive := true }⟩ }) ∨
    (∃ v, m = .ioState v ∧
      dispatch m now s =
        { s with block := pinUpdate s.block v, out := ⟨.message m, edgeEvents s.block.ioState v⟩ }) ∨
    ((∀ hb, m ≠ .heartbeat hb) ∧ (∀ v, m ≠ .ioState v) ∧ dispatch m now s = answer s (.message m)) := by
  cases m with
  | heartbeat hb => exact .inl ⟨hb, rfl, rfl⟩
  | ioState v => exact .inr (.inl ⟨v, rfl, rfl⟩)
  | halt _ => exact .inr (.inr ⟨by simp, by simp, rfl⟩)
  | setIoState _ => exact .inr (.inr ⟨by simp, by simp, rfl⟩)
  | setParameter _ _ => exact .inr (.inr ⟨by simp, by simp, rfl⟩)
  | getParameter _ => exact .inr (.inr ⟨by simp, by simp, rfl⟩)

/-- `RX`: a drop or a decode error, or the dispatch of the message decoded. -/
theorem execRx_next {id : Ident} {rtr : Bool} {len : Len} {data : Payload} {now : Nat} {s t : State}
    (h : execRx id rtr len data now s = .next t) :
    s.admits now ∧
    ((∃ st, t = raiseError { s with lastNow := some now } st) ∨
      (∃ m, splitNode id = s.cfg.nodeId ∧ rtr = false ∧ decodeFrame id len data = .ok (some m) ∧
        t = dispatch m now { s with lastNow := some now })) := by
  obtain ⟨ha, h⟩ := withTime_next h
  refine ⟨ha, ?_⟩
  split at h
  · exact .inl ⟨_, by cases h; rfl⟩
  · split at h
    · exact .inl ⟨_, by cases h; rfl⟩
    · split at h
      · exact .inl ⟨_, by cases h; rfl⟩
      · cases h
      · exact .inr ⟨_, by simp_all, by simp_all, ‹_›, by cases h; rfl⟩

/-- `SETOUT`: an error of the liveness check, or the frame. -/
theorem execSetout_next {value : Byte} {now : Nat} {s t : State} (h : execSetout value now s = .next t) :
    s.admits now ∧ ∃ r, t = answer { s with lastNow := some now } r := by
  obtain ⟨ha, hk⟩ := withTime_next h
  refine ⟨ha, ?_⟩
  split at hk
  · exact ⟨_, by cases hk; rfl⟩
  · exact ⟨_, by cases hk; rfl⟩

/-- `CHKALIVE`: a status. -/
theorem execChkalive_next {now : Nat} {s t : State} (h : execChkalive now s = .next t) :
    s.admits now ∧
      t = answer { s with lastNow := some now } (.status (liveness s.cfg.aliveTicks s.block now)) := by
  obtain ⟨ha, hk⟩ := withTime_next h
  cases hk
  exact ⟨ha, rfl⟩

/-- `ENC`: an error or a frame. -/
theorem execEnc_next {node : NodeId} {msg : Bundle} {s t : State} (h : execEnc node msg s = .next t) :
    ∃ r, t = answer s r := by
  unfold execEnc at h
  split at h
  · exact ⟨_, by cases h; rfl⟩
  · exact ⟨_, by cases h; rfl⟩

/-- No pulse names no signal. -/
@[simp] theorem events_none_names (c : Signal) : Events.none.names c = false := by
  cases c <;> simp [Events.names, Events.none]

/-- `RX`, register by register: the cells its pulses name are raised and the others stay; then no report (and nothing
changed), a Heartbeat, or an IoState (R106 to R109). -/
theorem execRx_report {id : Ident} {rtr : Bool} {len : Len} {data : Payload} {now : Nat} {s t : State}
    (h : execRx id rtr len data now s = .next t) :
    s.admits now ∧ t.cfg = s.cfg ∧ t.lastNow = some now ∧ t.cancelledWaits = s.cancelledWaits ∧ t.pending = s.pending ∧
    (∀ c, t.block.cells.get c =
      if t.out.events.names c then (s.block.cells.get c).raise else s.block.cells.get c) ∧
    ((t = answer { s with lastNow := some now } t.out.result ∧ (∀ hb, t.out.result ≠ .message (.heartbeat hb)) ∧
        (∀ v, t.out.result ≠ .message (.ioState v))) ∨
      (∃ hb, t.out.result = .message (.heartbeat hb) ∧
        t.block.lastHb = some ⟨hb, now⟩ ∧ t.block.ioState = hb.ioState ∧ t.block.prevState = s.block.ioState ∧
        t.out.events = { edgeEvents s.block.ioState hb.ioState with alive := true }) ∨
      (∃ v, t.out.result = .message (.ioState v) ∧ t.block.lastHb = s.block.lastHb ∧ t.block.ioState = v ∧
        t.block.prevState = s.block.ioState ∧ t.out.events = edgeEvents s.block.ioState v)) := by
  obtain ⟨ha, ⟨st, rfl⟩ | ⟨m, -, -, -, rfl⟩⟩ := execRx_next h
  · exact ⟨ha, rfl, rfl, rfl, rfl, fun c => by simp [raiseError], .inl ⟨rfl, by simp [raiseError], by simp [raiseError]⟩⟩
  · rcases dispatch_cases m now { s with lastNow := some now } with ⟨hb, rfl, he⟩ | ⟨v, rfl, he⟩ | ⟨hh, hv, he⟩ <;> rw [he]
    · exact ⟨ha, rfl, rfl, rfl, rfl, fun c => recordHeartbeat_cell _ _ _ _, .inr (.inl ⟨hb, rfl, rfl, rfl, rfl, rfl⟩)⟩
    · exact ⟨ha, rfl, rfl, rfl, rfl, fun c => pinUpdate_cell _ _ _, .inr (.inr ⟨v, rfl, rfl, rfl, rfl, rfl⟩)⟩
    · exact ⟨ha, rfl, rfl, rfl, rfl, fun c => by simp, .inl ⟨rfl, by simpa using hh, by simpa using hv⟩⟩

/-- A read, a check, a command or a codec operation answers, remembers its `now`, and writes nothing else (R22). -/
theorem exec_pure_next {i : Instr} {s t : State} (h : exec i s = .next t)
    (hc : opClass i = .pureCodec ∨ opClass i = .registerRead ∨ opClass i = .check ∨ opClass i = .output) :
    ∃ r, t = answer (s.noted i) r := by
  have dec : ∀ id len data, reportDecoded s (decodeFrame id len data) = .next t → ∃ r, t = answer s r := by
    intro id len data h
    rcases reportDecoded_next h with ⟨st, -, rfl⟩ | ⟨m, -, rfl⟩ <;> exact ⟨_, rfl⟩
  cases i
  case setout => exact (execSetout_next h).2
  case chkalive => exact ⟨_, (execChkalive_next h).2⟩
  case enc => exact execEnc_next h
  case dec => exact dec _ _ _ h
  case decHalt => exact dec _ _ _ h
  case decHeartbeat => exact dec _ _ _ h
  case decIostate => exact dec _ _ _ h
  case decSetiostate => exact dec _ _ _ h
  case decSetparam => exact dec _ _ _ h
  case decGetparam => exact dec _ _ _ h
  case unassigned6to7 => exact dec _ _ _ h
  case unassigned8to15 => exact dec _ _ _ h
  case unassigned16to31 => exact dec _ _ _ h
  all_goals first
    | (exfalso; simp [opClass] at hc; done)
    | exact ⟨_, by cases h; rfl⟩

/-- An operation that carries a `now` and answers a next state was admitted with it, and the next state remembers it. -/
theorem exec_admits {i : Instr} {s t : State} {now : Nat} (h : exec i s = .next t) (ht : timeOf i = some now) :
    s.admits now ∧ t.lastNow = some now := by
  cases i <;> simp only [timeOf, Option.some.injEq, reduceCtorEq] at ht
  case rx =>
    subst ht
    obtain ⟨ha, -, hn, -⟩ := execRx_report h
    exact ⟨ha, hn⟩
  case setout =>
    subst ht
    obtain ⟨ha, r, rfl⟩ := execSetout_next h
    exact ⟨ha, rfl⟩
  case chkalive =>
    subst ht
    obtain ⟨ha, rfl⟩ := execChkalive_next h
    exact ⟨ha, rfl⟩

/-- Every operation that answers a next state is one of six: an operation without effect on the block, `RESET`, `RX` or
one of the three `WAIT.*`. -/
theorem exec_next_cases {i : Instr} {s t : State} (h : exec i s = .next t) :
    ((opClass i = .pureCodec ∨ opClass i = .registerRead ∨ opClass i = .check ∨ opClass i = .output) ∧
      ∃ r, t = answer (s.noted i) r) ∨
    (i = .reset ∧ t = answer
      { s with
        block := Session.initial s.cfg.ioReset
        lastNow := none
        cancelledWaits := cancelWaits s.cancelledWaits s.block.cells } .none) ∨
    (∃ id rtr len data now, i = .rx id rtr len data now ∧ execRx id rtr len data now s = .next t) ∨
    (∃ sig, i = .waitEnter sig ∧ execWaitEnter sig s = .next t) ∨
    (∃ sig, i = .waitObserve sig ∧ execWaitObserve sig s = .next t) ∨
    (∃ sig, i = .waitAbandon sig ∧ execWaitAbandon sig s = .next t) := by
  cases i
  case rx => exact .inr (.inr (.inl ⟨_, _, _, _, _, rfl, h⟩))
  case reset => exact .inr (.inl ⟨rfl, by cases h; rfl⟩)
  case waitEnter => exact .inr (.inr (.inr (.inl ⟨_, rfl, h⟩)))
  case waitObserve => exact .inr (.inr (.inr (.inr (.inl ⟨_, rfl, h⟩))))
  case waitAbandon => exact .inr (.inr (.inr (.inr (.inr ⟨_, rfl, h⟩))))
  case reservedCmd => cases h
  all_goals exact .inl ⟨by simp [opClass], exec_pure_next h (by simp [opClass])⟩

end Sys2Proof.Machine
end

