-- ==== Sys2Proof/Laws/PerInstr.lean ====
section
/-! SUPPORT. One family of statements, per constructor of Instr: decoding what the encoder writes. -/

namespace Sys2Proof.Laws.RoundTrip

/-- An operation comes back from its issue, with every operand at every value its width admits. -/
def Statement (i : Instr) : Prop := decode (encode i) = .ok i

/-! ## The transmit port -/

theorem decode_txIssue (node : NodeId) (op : Opcode) (fields : List Byte) :
    decode (txIssue node op fields) = txRow node op (identLanes (Ident.mk node op) ++ fields) := by
  simp only [decode, txIssue, decodeTx, identField_txIssue, bind, Except.bind, Ident.opcode_mk, Ident.node_mk]

theorem encHalt (node : NodeId) (v : Byte) : Statement (.encHalt node v) := by
  unfold Statement
  simp only [encode, decode_txIssue]
  rfl

theorem encHeartbeat (node : NodeId) (a b c d e : Byte) : Statement (.encHeartbeat node a b c d e) := by
  unfold Statement
  simp only [encode, decode_txIssue]
  rfl

theorem encIostate (node : NodeId) (v : Byte) : Statement (.encIostate node v) := by
  unfold Statement
  simp only [encode, decode_txIssue]
  rfl

theorem encSetiostate (node : NodeId) (v : Byte) : Statement (.encSetiostate node v) := by
  unfold Statement
  simp only [encode, decode_txIssue]
  rfl

theorem encSetparam (node : NodeId) (p : Byte) (v : Word32) : Statement (.encSetparam node p v) := by
  unfold Statement
  have hv : word32Field (identLanes (Ident.mk node 4#5) ++ p :: word32Lanes v) 3 = .ok v :=
    word32Field_of_word32Lanes v rfl rfl rfl rfl
  have hp : lane (identLanes (Ident.mk node 4#5) ++ p :: word32Lanes v) 2 = .ok p := rfl
  simp [encode, decode_txIssue, txRow, hp, hv, bind, Except.bind]

theorem encGetparam (node : NodeId) (v : Byte) : Statement (.encGetparam node v) := by
  unfold Statement
  simp only [encode, decode_txIssue]
  rfl

/-! ## The receive port -/

theorem decode_rxIssue (node : NodeId) (op : Opcode) (len : Len) (data : Payload) :
    decode (rxIssue node op len data) = .ok (rxRow node op len data) := by
  have hi := identField_txIssue node op (fieldLane len :: payloadLanes data)
  have hl : field 4 .wideLen (identLanes (Ident.mk node op) ++ fieldLane len :: payloadLanes data) 2 = .ok len :=
    field_of_fieldLane len (by decide) rfl
  have hd : payloadField (identLanes (Ident.mk node op) ++ fieldLane len :: payloadLanes data) 3 = .ok data :=
    payloadField_of_payloadLanes data rfl rfl rfl rfl rfl rfl rfl rfl
  simp only [decode, rxIssue, decodeRx, hi, hl, hd, bind, Except.bind, Ident.opcode_mk, Ident.node_mk]

theorem decHalt (node : NodeId) (len : Len) (data : Payload) : Statement (.decHalt node len data) :=
  decode_rxIssue node 0 len data

theorem decHeartbeat (node : NodeId) (len : Len) (data : Payload) : Statement (.decHeartbeat node len data) :=
  decode_rxIssue node 1 len data

theorem decIostate (node : NodeId) (len : Len) (data : Payload) : Statement (.decIostate node len data) :=
  decode_rxIssue node 2 len data

theorem decSetiostate (node : NodeId) (len : Len) (data : Payload) : Statement (.decSetiostate node len data) :=
  decode_rxIssue node 3 len data

theorem decSetparam (node : NodeId) (len : Len) (data : Payload) : Statement (.decSetparam node len data) :=
  decode_rxIssue node 4 len data

theorem decGetparam (node : NodeId) (len : Len) (data : Payload) : Statement (.decGetparam node len data) :=
  decode_rxIssue node 5 len data

/-- The bits a row leaves free, at their value in every case. -/
theorem rxRow_6to7 : ∀ (node : NodeId) (x : BitVec 1) (len : Len) (data : Payload),
    rxRow node (0b0011#4 ++ x) len data = .unassigned6to7 node x len data := by
  intro node x len data
  have hx : x = 0#1 ∨ x = 1#1 := by revert x; decide
  rcases hx with rfl | rfl <;> rfl

theorem rxRow_8to15 : ∀ (node : NodeId) (x : BitVec 3) (len : Len) (data : Payload),
    rxRow node (0b01#2 ++ x) len data = .unassigned8to15 node x len data := by
  intro node x len data
  have hx : x = 0#3 ∨ x = 1#3 ∨ x = 2#3 ∨ x = 3#3 ∨ x = 4#3 ∨ x = 5#3 ∨ x = 6#3 ∨ x = 7#3 := by revert x; decide
  rcases hx with rfl | rfl | rfl | rfl | rfl | rfl | rfl | rfl <;> rfl

theorem rxRow_16to31 : ∀ (node : NodeId) (x : BitVec 4) (len : Len) (data : Payload),
    rxRow node (0b1#1 ++ x) len data = .unassigned16to31 node x len data := by
  intro node x len data
  have hx : x = 0#4 ∨ x = 1#4 ∨ x = 2#4 ∨ x = 3#4 ∨ x = 4#4 ∨ x = 5#4 ∨ x = 6#4 ∨ x = 7#4 ∨ x = 8#4 ∨ x = 9#4 ∨
      x = 10#4 ∨ x = 11#4 ∨ x = 12#4 ∨ x = 13#4 ∨ x = 14#4 ∨ x = 15#4 := by revert x; decide
  rcases hx with rfl | rfl | rfl | rfl | rfl | rfl | rfl | rfl | rfl | rfl | rfl | rfl | rfl | rfl | rfl | rfl <;> rfl

theorem unassigned6to7 (node : NodeId) (x : BitVec 1) (len : Len) (data : Payload) :
    Statement (.unassigned6to7 node x len data) :=
  (decode_rxIssue node (0b0011#4 ++ x) len data).trans (by rw [rxRow_6to7])

theorem unassigned8to15 (node : NodeId) (x : BitVec 3) (len : Len) (data : Payload) :
    Statement (.unassigned8to15 node x len data) :=
  (decode_rxIssue node (0b01#2 ++ x) len data).trans (by rw [rxRow_8to15])

theorem unassigned16to31 (node : NodeId) (x : BitVec 4) (len : Len) (data : Payload) :
    Statement (.unassigned16to31 node x len data) :=
  (decode_rxIssue node (0b1#1 ++ x) len data).trans (by rw [rxRow_16to31])

/-! ## The port of operation codes -/

/-- The code is read back from lane 0, and selects the row. -/
theorem decode_cmdIssue (cmd : BitVec 4) (operands : List Byte) :
    decode (cmdIssue cmd operands) = cmdRow cmd (fieldLane cmd :: operands) := by
  have h : field 4 .wideCmd (fieldLane cmd :: operands) 0 = .ok cmd := field_of_fieldLane cmd (by decide) rfl
  simp only [decode, cmdIssue, decodeCmd, h, bind, Except.bind]

theorem reset : Statement .reset := rfl

theorem rtrField_of_bit (ls : List Byte) (k : Nat) (r : Bool) (h : ls[k]? = some (fieldLane (BitVec.ofBool r))) :
    rtrField ls k = .ok r := by
  simp only [rtrField, field_of_fieldLane (BitVec.ofBool r) (by decide) h, bind, Except.bind]
  cases r <;> rfl

theorem rx (id : Ident) (rtr : Bool) (len : Len) (data : Payload) (now : Nat) : Statement (.rx id rtr len data now) := by
  unfold Statement
  simp only [encode, decode_cmdIssue]
  generalize hls : fieldLane 1#4 ::
    (identLanes id ++ fieldLane (BitVec.ofBool rtr) :: fieldLane len :: payloadLanes data ++ lanesOfNat now) = ls
  have hi : identField ls 1 = .ok id := by subst hls; exact identField_of_identLanes id rfl rfl
  have hr : rtrField ls 3 = .ok rtr := by subst hls; exact rtrField_of_bit _ _ _ rfl
  have hl : field 4 .wideLen ls 4 = .ok len := by subst hls; exact field_of_fieldLane len (by decide) rfl
  have hd : payloadField ls 5 = .ok data := by
    subst hls; exact payloadField_of_payloadLanes data rfl rfl rfl rfl rfl rfl rfl rfl
  have hn : nowField ls 13 = now := by subst hls; exact natOfLanes_lanesOfNat now
  simp [cmdRow, bind, Except.bind, hi, hr, hl, hd, hn]

theorem setout (value : Byte) (now : Nat) : Statement (.setout value now) := by
  unfold Statement
  have hv : lane (fieldLane 2#4 :: value :: lanesOfNat now) 1 = .ok value := rfl
  have hn : nowField (fieldLane 2#4 :: value :: lanesOfNat now) 2 = now := natOfLanes_lanesOfNat now
  simp [encode, decode_cmdIssue, cmdRow, bind, Except.bind, hv, hn]

theorem chkalive (now : Nat) : Statement (.chkalive now) := by
  unfold Statement
  have hn : nowField (fieldLane 3#4 :: lanesOfNat now) 1 = now := natOfLanes_lanesOfNat now
  simp [encode, decode_cmdIssue, cmdRow, hn]

theorem sigField (c : Byte) (sig : SigNum) : field 5 .wideSig [c, fieldLane sig] 1 = .ok sig :=
  field_of_fieldLane sig (by decide) rfl

theorem waitEnter (sig : SigNum) : Statement (.waitEnter sig) := by
  unfold Statement
  simp [encode, decode_cmdIssue, cmdRow, bind, Except.bind, sigField]

theorem waitObserve (sig : SigNum) : Statement (.waitObserve sig) := by
  unfold Statement
  simp [encode, decode_cmdIssue, cmdRow, bind, Except.bind, sigField]

theorem waitAbandon (sig : SigNum) : Statement (.waitAbandon sig) := by
  unfold Statement
  simp [encode, decode_cmdIssue, cmdRow, bind, Except.bind, sigField]

theorem rdIostate : Statement .rdIostate := rfl

theorem rdPin (n : BitVec 3) : Statement (.rdPin n) := by
  unfold Statement
  have hn : field 3 .widePin [fieldLane 8#4, fieldLane n] 1 = .ok n := field_of_fieldLane n (by decide) rfl
  simp [encode, decode_cmdIssue, cmdRow, bind, Except.bind, hn]

theorem rdHb : Statement .rdHb := rfl

theorem rdNodeid : Statement .rdNodeid := rfl

theorem genid (node : NodeId) (op : Opcode) : Statement (.genid node op) := by
  unfold Statement
  have hn : field 6 .wideNode [fieldLane 11#4, fieldLane node, fieldLane op] 1 = .ok node :=
    field_of_fieldLane node (by decide) rfl
  have ho : field 5 .wideOpcode [fieldLane 11#4, fieldLane node, fieldLane op] 2 = .ok op :=
    field_of_fieldLane op (by decide) rfl
  simp [encode, decode_cmdIssue, cmdRow, bind, Except.bind, hn, ho]

theorem splitid (id : Ident) : Statement (.splitid id) := by
  unfold Statement
  have hi : identField (fieldLane 12#4 :: identLanes id) 1 = .ok id := identField_of_identLanes id rfl rfl
  simp [encode, decode_cmdIssue, cmdRow, bind, Except.bind, hi]

theorem enc (node : NodeId) (msg : Bundle) : Statement (.enc node msg) := by
  unfold Statement
  have hn : field 6 .wideNode (fieldLane 13#4 :: fieldLane node :: bundleLanes msg) 1 = .ok node :=
    field_of_fieldLane node (by decide) rfl
  simp [encode, decode_cmdIssue, cmdRow, bind, Except.bind, hn, bundleField_of_bundleLanes]

theorem dec (id : Ident) (len : Len) (data : Payload) : Statement (.dec id len data) := by
  unfold Statement
  simp only [encode, decode_cmdIssue]
  generalize hls : fieldLane 14#4 :: (identLanes id ++ fieldLane len :: payloadLanes data) = ls
  have hi : identField ls 1 = .ok id := by subst hls; exact identField_of_identLanes id rfl rfl
  have hl : field 4 .wideLen ls 3 = .ok len := by subst hls; exact field_of_fieldLane len (by decide) rfl
  have hd : payloadField ls 4 = .ok data := by
    subst hls; exact payloadField_of_payloadLanes data rfl rfl rfl rfl rfl rfl rfl rfl
  simp [cmdRow, bind, Except.bind, hi, hl, hd]

theorem reservedCmd : Statement .reservedCmd := rfl

end Sys2Proof.Laws.RoundTrip
end

