-- ==== Sys2Proof/Tests/Slice0.lean ====
section
/-! SUPPORT. Tests: words written out from the encodings of 30_encoding.md, one step of each operation against the vectors
of 95_test_vectors.md, and a witness for the hypotheses of each statement. -/

namespace Sys2Proof.Tests

open Sys2Proof.Machine

/-! ## Helpers -/

/-- The outcome is a next state, and it meets the test. -/
def goesTo (o : Host.Outcome State Fault Refusal) (p : State → Bool) : Bool :=
  match o with
  | .next t => p t
  | .fault _ => false
  | .refused _ => false

/-- The outcome is this refusal. -/
def stops (o : Host.Outcome State Fault Refusal) (r : Refusal) : Bool :=
  match o with
  | .next _ => false
  | .fault _ => false
  | .refused r' => r' = r

/-- The operation answers this result and no pulse, and leaves the block as it is. -/
def tells (i : Instr) (s : State) (r : Result) : Bool :=
  goesTo (exec i s) fun t => t.out = ⟨r, Events.none⟩ ∧ t.block = s.block

/-- The machine after reset, these lanes issued. -/
def issued (port : Port) (lanes : List Byte) : State := { State.reset with pending := [⟨port, lanes⟩] }

/-- The machine after reset and a Heartbeat of P4, dispatched at this time. -/
def beat (time : Nat) : State :=
  { State.reset with
    block := { State.reset.block with lastHb := some ⟨⟨1, 0, 0, 0, 7⟩, time⟩ }
    lastNow := some time }

/-- The machine after reset, with these levels. -/
def levels (new old : Byte) : State :=
  { State.reset with block := { State.reset.block with ioState := new, prevState := old } }

/-- The machine after reset, with one cell as given. -/
def cell (c : Signal) (flag : Bool) (waiters : Nat) : State := setCell State.reset c ⟨flag, waiters⟩

/-- A state with finite widths: times of 8 bits, waiter counters of 2 bits. -/
def narrowed (s : State) : State := { s with cfg := { s.cfg with timeW := some 8, waiterW := some 2 } }

/-- A payload of one byte. -/
def one (v : Byte) : Payload := ⟨v, 0, 0, 0, 0, 0, 0, 0⟩

/-- A payload of five bytes. -/
def five (a b c d e : Byte) : Payload := ⟨a, b, c, d, e, 0, 0, 0⟩

/-! ## Well-formedness -/

theorem test_waitEnter_25_illFormed : (Instr.waitEnter 25).wellFormed = false := by decide
theorem test_waitObserve_31_illFormed : (Instr.waitObserve 31).wellFormed = false := by decide
theorem test_waitAbandon_25_illFormed : (Instr.waitAbandon 25).wellFormed = false := by decide
theorem test_waitEnter_24_wellFormed : (Instr.waitEnter 24).wellFormed = true := by decide

/-! ## Decoding: lanes written out from R52, R56, R62 and R63 in the layout of log 2 -/

theorem test_decode_encHalt : decode ⟨.tx, [0xE0, 0x07, 0xA5]⟩ = .ok (.encHalt 63 0xA5) := by decide
theorem test_decode_encHeartbeat :
    decode ⟨.tx, [0xA1, 0x00, 0x03, 0xF0, 0x0F, 0x80, 0x07]⟩ = .ok (.encHeartbeat 5 3 0xF0 0x0F 0x80 7) := by decide
theorem test_decode_encIostate : decode ⟨.tx, [0x22, 0x00, 0x81]⟩ = .ok (.encIostate 1 0x81) := by decide
theorem test_decode_encSetiostate : decode ⟨.tx, [0x43, 0x01, 0xFF]⟩ = .ok (.encSetiostate 10 0xFF) := by decide
theorem test_decode_encSetparam :
    decode ⟨.tx, [0x64, 0x00, 0x10, 0x78, 0x56, 0x34, 0x12]⟩ = .ok (.encSetparam 3 0x10 0x12345678) := by decide
theorem test_decode_encGetparam : decode ⟨.tx, [0x05, 0x00, 0xFF]⟩ = .ok (.encGetparam 0 0xFF) := by decide
theorem test_decode_decHalt :
    decode ⟨.rx, [0x20, 0x00, 0x01, 0xFF, 0, 0, 0, 0, 0, 0, 0]⟩ = .ok (.decHalt 1 1 (one 0xFF)) := by decide
theorem test_decode_decHeartbeat :
    decode ⟨.rx, [0xE1, 0x07, 0x05, 9, 8, 7, 6, 5, 0, 0, 0]⟩ = .ok (.decHeartbeat 63 5 (five 9 8 7 6 5)) := by decide
theorem test_decode_decIostate :
    decode ⟨.rx, [0x22, 0x00, 0x02, 0, 0, 0, 0, 0, 0, 0, 0]⟩ = .ok (.decIostate 1 2 (one 0)) := by decide
theorem test_decode_decSetiostate :
    decode ⟨.rx, [0x43, 0x01, 0x01, 1, 0, 0, 0, 0, 0, 0, 0]⟩ = .ok (.decSetiostate 10 1 (one 1)) := by decide
theorem test_decode_decSetparam :
    decode ⟨.rx, [0x24, 0x00, 0x05, 7, 0xFE, 0xFF, 0xFF, 0xFF, 0, 0, 0]⟩ =
      .ok (.decSetparam 1 5 (five 7 0xFE 0xFF 0xFF 0xFF)) := by decide
theorem test_decode_decGetparam :
    decode ⟨.rx, [0x25, 0x00, 0x0F, 1, 2, 3, 4, 5, 6, 7, 8]⟩ = .ok (.decGetparam 1 15 ⟨1, 2, 3, 4, 5, 6, 7, 8⟩) := by decide
theorem test_decode_unassigned6to7 :
    decode ⟨.rx, [0x27, 0x00, 0x01, 0, 0, 0, 0, 0, 0, 0, 0]⟩ = .ok (.unassigned6to7 1 1 1 (one 0)) := by decide
theorem test_decode_unassigned8to15 :
    decode ⟨.rx, [0x2C, 0x00, 0x01, 0, 0, 0, 0, 0, 0, 0, 0]⟩ = .ok (.unassigned8to15 1 4 1 (one 0)) := by decide
theorem test_decode_unassigned16to31 :
    decode ⟨.rx, [0x3E, 0x00, 0x05, 0, 0, 0, 0, 0, 0, 0, 0]⟩ = .ok (.unassigned16to31 1 14 5 (one 0)) := by decide
theorem test_decode_reset : decode ⟨.cmd, [0x00]⟩ = .ok .reset := by decide
theorem test_decode_rx :
    decode ⟨.cmd, [0x01, 0x21, 0x00, 0x01, 0x05, 1, 0, 0xFF, 0, 0, 0, 0, 0, 0x28, 0x01]⟩ =
      .ok (.rx 0x021 true 5 (five 1 0 0xFF 0 0) 0x128) := by decide
theorem test_decode_setout : decode ⟨.cmd, [0x02, 0x80, 0xE8, 0x03]⟩ = .ok (.setout 0x80 1000) := by decide
theorem test_decode_chkalive : decode ⟨.cmd, [0x03, 0xDC, 0x05]⟩ = .ok (.chkalive 1500) := by decide
theorem test_decode_waitEnter : decode ⟨.cmd, [0x04, 0x18]⟩ = .ok (.waitEnter 24) := by decide
theorem test_decode_waitObserve : decode ⟨.cmd, [0x05, 0x10]⟩ = .ok (.waitObserve 16) := by decide
theorem test_decode_waitAbandon : decode ⟨.cmd, [0x06, 0x0F]⟩ = .ok (.waitAbandon 15) := by decide
theorem test_decode_rdIostate : decode ⟨.cmd, [0x07]⟩ = .ok .rdIostate := by decide
theorem test_decode_rdPin : decode ⟨.cmd, [0x08, 0x07]⟩ = .ok (.rdPin 7) := by decide
theorem test_decode_rdHb : decode ⟨.cmd, [0x09]⟩ = .ok .rdHb := by decide
theorem test_decode_rdNodeid : decode ⟨.cmd, [0x0A]⟩ = .ok .rdNodeid := by decide
theorem test_decode_genid : decode ⟨.cmd, [0x0B, 0x3F, 0x1F]⟩ = .ok (.genid 63 31) := by decide
theorem test_decode_splitid : decode ⟨.cmd, [0x0C, 0x2C, 0x00]⟩ = .ok (.splitid 0x02C) := by decide
theorem test_decode_enc :
    decode ⟨.cmd, [0x0D, 0x03, 0x04, 1, 2, 3, 4, 5, 0x10, 0x78, 0x56, 0x34, 0x12]⟩ =
      .ok (.enc 3 ⟨4, 1, 2, 3, 4, 5, 0x10, 0x12345678⟩) := by decide
theorem test_decode_dec :
    decode ⟨.cmd, [0x0E, 0xE1, 0x07, 0x05, 9, 8, 7, 6, 5, 0, 0, 0]⟩ = .ok (.dec 0x7E1 5 (five 9 8 7 6 5)) := by decide
theorem test_decode_reservedCmd : decode ⟨.cmd, [0x0F]⟩ = .ok .reservedCmd := by decide
theorem test_decode_refuses :
    decode ⟨.cmd, [0x10]⟩ = .error .wideCmd ∧ decode ⟨.cmd, []⟩ = .error .missingLane ∧
    decode ⟨.rx, [0x00, 0x08]⟩ = .error .wideIdent ∧ decode ⟨.cmd, [0x08, 0x08]⟩ = .error .widePin ∧
    decode ⟨.cmd, [0x04, 0x20]⟩ = .error .wideSig := by decide

/-! ## One step of each operation: sections 1 to 3 of 95_test_vectors.md -/

theorem test_genid : tells (.genid 10 3) State.reset (.ident 0x143) = true := by decide
theorem test_splitid : tells (.splitid 0x02C) State.reset (.split 1 12) = true := by decide

theorem test_encHalt : tells (.encHalt 63 0xA5) State.reset (.frame ⟨0x7E0, false, 1, one 0xA5⟩) = true := by decide
theorem test_encHeartbeat :
    tells (.encHeartbeat 5 3 0xF0 0x0F 0x80 7) State.reset (.frame ⟨0x0A1, false, 5, five 3 0xF0 0x0F 0x80 7⟩) = true := by
  decide
theorem test_encIostate : tells (.encIostate 1 0x81) State.reset (.frame ⟨0x022, false, 1, one 0x81⟩) = true := by decide
theorem test_encSetiostate :
    tells (.encSetiostate 10 0xFF) State.reset (.frame ⟨0x143, false, 1, one 0xFF⟩) = true := by decide
theorem test_encSetparam :
    tells (.encSetparam 3 0x10 0x12345678) State.reset (.frame ⟨0x064, false, 5, five 0x10 0x78 0x56 0x34 0x12⟩) = true := by
  decide
theorem test_encSetparam_negative :
    tells (.encSetparam 1 7 (BitVec.ofInt 32 (-2))) State.reset
      (.frame ⟨0x024, false, 5, five 7 0xFE 0xFF 0xFF 0xFF⟩) = true := by decide
theorem test_encGetparam : tells (.encGetparam 0 0xFF) State.reset (.frame ⟨0x005, false, 1, one 0xFF⟩) = true := by decide
theorem test_enc_setparam :
    tells (.enc 1 ⟨4, 9, 9, 9, 9, 9, 2, 256⟩) State.reset (.frame ⟨0x024, false, 5, five 2 0 1 0 0⟩) = true := by decide
theorem test_enc_unknown :
    tells (.enc 1 ⟨6, 0, 0, 0, 0, 0, 0, 0⟩) State.reset (.status .unknownMessageType) = true := by decide

theorem test_decHalt : tells (.decHalt 1 1 (one 0xFF)) State.reset (.message (.halt 255)) = true := by decide
theorem test_decHeartbeat :
    tells (.decHeartbeat 63 5 (five 9 8 7 6 5)) State.reset (.message (.heartbeat ⟨9, 8, 7, 6, 5⟩)) = true := by decide
theorem test_decHeartbeat_legacy : tells (.decHeartbeat 1 6 (one 1)) State.reset (.status .lengthMismatch) = true := by decide
theorem test_decIostate : tells (.decIostate 1 1 (one 0x81)) State.reset (.message (.ioState 0x81)) = true := by decide
theorem test_decSetiostate : tells (.decSetiostate 1 1 (one 1)) State.reset (.message (.setIoState 1)) = true := by decide
theorem test_decSetparam :
    tells (.decSetparam 1 5 (five 1 0 0 0 0x80)) State.reset
      (.message (.setParameter 1 (BitVec.ofInt 32 (-2147483648)))) = true := by decide
theorem test_decGetparam : tells (.decGetparam 1 1 (one 7)) State.reset (.message (.getParameter 7)) = true := by decide
theorem test_unassigned6to7 : tells (.unassigned6to7 1 0 1 (one 0)) State.reset (.status .unknownOpcode) = true := by decide
theorem test_unassigned8to15 : tells (.unassigned8to15 1 4 1 (one 0)) State.reset (.status .unknownOpcode) = true := by decide
theorem test_unassigned16to31 : tells (.unassigned16to31 1 15 5 (one 0)) State.reset (.status .unknownOpcode) = true := by
  decide
theorem test_dec_value :
    tells (.dec 0x024 5 (five 16 0x78 0x56 0x34 0x12)) State.reset (.message (.setParameter 16 305419896)) = true := by decide
theorem test_dec_opcode_before_length : tells (.dec 0x006 0 (one 0)) State.reset (.status .unknownOpcode) = true := by decide

/-- Section 2.9: the state before `RESET`, the three waits it cancels, and no result and no pulse. -/
theorem test_reset :
    goesTo (exec .reset (setCell (cell (.rise 0) true 2) .alive ⟨false, 1⟩)) (fun t =>
      t.block = Session.initial 0 ∧ t.out = ⟨.none, Events.none⟩ ∧
      t.cancelledWaits = ((Bank.all 0).set (.rise 0) 2).set .alive 1) = true := by decide

/-- The third row of section 2.5 from the bottom, through `RX`: 0x05 to 0x06, with waiters on two of the pins. -/
theorem test_rx_iostate :
    goesTo (exec (.rx 0x022 false 1 (one 0x06) 5) (setCell (setCell (levels 0x05 0) (.rise 1) ⟨false, 1⟩) (.rise 0) ⟨false, 1⟩))
      (fun t => t.out = ⟨.message (.ioState 6), ⟨0x03, 0x02, 0x01, false⟩⟩ ∧ t.block.ioState = 0x06 ∧ t.block.prevState = 0x05 ∧
        t.block.cells.get (.rise 1) = ⟨true, 1⟩ ∧ t.block.cells.get (.rise 0) = ⟨false, 1⟩) = true := by decide
/-- P1, step 11. -/
theorem test_rx_heartbeat :
    goesTo (exec (.rx 0x021 false 5 (five 1 0 1 0 1) 200) (cell (.rise 0) false 1)) (fun t =>
      t.out = ⟨.message (.heartbeat ⟨1, 0, 1, 0, 1⟩), ⟨1, 1, 0, true⟩⟩ ∧
      t.block = { Session.initial 0 with
        ioState := 1, lastHb := some ⟨⟨1, 0, 1, 0, 1⟩, 200⟩, cells := (Bank.all Cell.clear).set (.rise 0) ⟨true, 1⟩ }) = true := by
  decide

theorem test_chkalive_at_threshold : tells (.chkalive 1500) (beat 1000) (.status .ok) = true := by decide
theorem test_chkalive_above_threshold : tells (.chkalive 1501) (beat 1000) (.status .heartbeatTimeout) = true := by decide
theorem test_setout : tells (.setout 0x80 1500) (beat 1000) (.frame ⟨0x023, false, 1, one 0x80⟩) = true := by decide
theorem test_setout_before_heartbeat : tells (.setout 1 0) State.reset (.status .noHeartbeat) = true := by decide

theorem test_waitEnter :
    goesTo (exec (.waitEnter 0) (cell (.rise 0) true 1)) (fun t => t.block.cells.get (.rise 0) = ⟨true, 2⟩) = true := by decide
theorem test_waitObserve_not_last :
    goesTo (exec (.waitObserve 15) (cell (.fall 7) true 2)) (fun t =>
      t.out.result = .status .ok ∧ t.block.cells.get (.fall 7) = ⟨true, 1⟩) = true := by decide
theorem test_waitObserve_last :
    goesTo (exec (.waitObserve 24) (cell .alive true 1)) (fun t =>
      t.out.result = .status .ok ∧ t.block.cells.get .alive = ⟨false, 0⟩) = true := by decide
theorem test_waitAbandon_not_last :
    goesTo (exec (.waitAbandon 16) (cell (.change 0) true 2)) (fun t => t.block.cells.get (.change 0) = ⟨true, 1⟩) = true := by
  decide
theorem test_waitAbandon_last :
    goesTo (exec (.waitAbandon 24) (cell .alive true 1)) (fun t => t.block.cells.get .alive = ⟨false, 0⟩) = true := by decide

theorem test_rdIostate : tells .rdIostate (levels 0x81 0x00) (.ioState 0x81) = true := by decide
theorem test_rdPin : tells (.rdPin 0) (levels 0x06 0x05) (.pin false true) = true := by decide
theorem test_rdHb_absent : tells .rdHb State.reset (.lastHeartbeat none) = true := by decide
theorem test_rdHb : tells .rdHb (beat 9) (.lastHeartbeat (some ⟨1, 0, 0, 0, 7⟩)) = true := by decide
theorem test_rdNodeid : tells .rdNodeid State.reset (.nodeId 1) = true := by decide
theorem test_reservedCmd : stops (exec .reservedCmd State.reset) .reservedCommand = true := by decide

/-! ## Words of the opcode table, as the host asks for them -/

theorem test_table_words :
    decodeTableWord 8 0x1 = some (.rx 0 false 0 (one 0) 0) ∧ decodeTableWord 8 0xF = some .reservedCmd ∧
    decodeTableWord 16 0x001 = some (.decHeartbeat 0 0 (one 0)) ∧
    decodeTableWord 16 0x7FF = some (.unassigned16to31 63 15 0 (one 0)) := by decide
theorem test_fetch_word : goesTo (step (State.reset.withFetchWord 8 0xA)) (fun t => t.out.result = .nodeId 1) = true := by decide

/-! ## Witnesses: for each statement with hypotheses, a state and operands that meet them together -/

/-- The statement has no hypothesis; this is its boundary, a number that no cell has. -/
theorem witness_DecodeOfEncodeIsTheOperation : (encode (.waitAbandon 31)).lanes = [0x06, 0x1F] := by decide

theorem witness_StepRunsTheDecodedOperation :
    (issued .cmd [0x08, 0x07]).pending = ⟨.cmd, [0x08, 0x07]⟩ :: [] ∧
    decode ⟨.cmd, [0x08, 0x07]⟩ = .ok (.rdPin 7) := by decide

theorem witness_StepWithNothingIssuedHolds : (levels 0x81 0x01).pending = [] := by decide

/-- Each first value above a bound: node 64, opcode 32, identifier 0x800. -/
theorem witness_WideIdentifierOperandsAreRefused :
    ((issued .cmd [0x0B, 64, 31]).pending = [⟨.cmd, 0x0B :: 64 :: 31 :: []⟩] ∧ 63 < (64 : Byte).toNat) ∧
    ((issued .cmd [0x0B, 63, 32]).pending = [⟨.cmd, 0x0B :: 63 :: 32 :: []⟩] ∧ 31 < (32 : Byte).toNat) ∧
    ((issued .cmd [0x0C, 0, 8]).pending = [⟨.cmd, 0x0C :: 0 :: 8 :: []⟩] ∧
      0x7FF < (0 : Byte).toNat + 256 * (8 : Byte).toNat) := by decide

/-- Finite widths, a cell that is set with the greatest count, the latest time, and a Heartbeat to come at that time. -/
def busy : State :=
  { narrowed (beat 255) with
    block := { (beat 255).block with cells := (Bank.all Cell.clear).set .alive ⟨true, 3⟩ }
    pending := [⟨.cmd, [0x01, 0x21, 0x00, 0x00, 0x05, 1, 0, 0xFF, 0, 0, 0, 0, 0, 0xFF]⟩] }

theorem busy_cells (c : Signal) : busy.block.cells.get c = if c = .alive then ⟨true, 3⟩ else ⟨false, 0⟩ := by
  cases c
  case alive => rfl
  all_goals
    rename_i n
    revert n
    decide

theorem witness_StepKeepsTheInvariant : ∃ t, busy.Inv ∧ step busy = .next t := by
  refine ⟨_, ⟨fun c hc => ?_, fun w hw c => ?_, fun w r hw hr => ?_, fun w n hw hn => ?_, fun r hr => ?_⟩, rfl⟩
  · rw [busy_cells] at hc ⊢
    split at hc
    · simp [*]
    · simp at hc
  · rw [busy_cells]
    cases hw
    split <;> decide
  · cases hw
    cases hr
    decide
  · cases hw
    cases hn
    decide
  · cases hr
    exact ⟨255, rfl, by decide⟩

theorem witness_OperationsKeepConfigurationAndQueue :
    ∃ t, exec (.rx 0x021 false 5 (five 1 0 0xFF 0 0) 255) busy = .next t := ⟨_, rfl⟩

/-- One witness for each clause: session data, a flag set, a flag cleared, a count, an operation without effect. -/
theorem witness_OnlyRxAndResetWriteSessionData :
    (∃ t, exec (.rx 0x022 false 1 (one 1) 0) (cell (.rise 0) false 1) = .next t ∧
      t.block.ioState ≠ (cell (.rise 0) false 1).block.ioState ∧
      ((cell (.rise 0) false 1).block.cells.get (.rise 0)).flag = false ∧ (t.block.cells.get (.rise 0)).flag = true) ∧
    (∃ t, exec (.waitObserve 24) (cell .alive true 1) = .next t ∧
      ((cell .alive true 1).block.cells.get .alive).flag = true ∧ (t.block.cells.get .alive).flag = false ∧
      (t.block.cells.get .alive).waiters ≠ ((cell .alive true 1).block.cells.get .alive).waiters) ∧
    (∃ t, exec (.setout 1 0) State.reset = .next t ∧ opClass (.setout 1 0) = .output) :=
  ⟨⟨_, rfl, by decide⟩, ⟨_, rfl, by decide⟩, ⟨_, rfl, by decide⟩⟩

theorem witness_ErrorsChangeNothing :
    ∃ t, exec (.chkalive 1501) (beat 1000) = .next t ∧ t.out.result = .status .heartbeatTimeout ∧
      Status.heartbeatTimeout ≠ .ok := ⟨_, rfl, by decide⟩

theorem witness_HeartbeatValidUntilReset :
    (∃ t, exec (.rx 0x021 false 5 (five 1 0 0 0 0) 0) State.reset = .next t ∧ State.reset.block.hbValid = false ∧
      t.block.hbValid = true ∧ t.out.result = .message (.heartbeat ⟨1, 0, 0, 0, 0⟩)) ∧
    (∃ t, exec (.waitEnter 0) (beat 0) = .next t ∧ (beat 0).block.hbValid = true ∧ Instr.waitEnter 0 ≠ .reset) ∧
    (∃ t, exec .reset (beat 0) = .next t) :=
  ⟨⟨_, rfl, by decide⟩, ⟨_, rfl, by decide⟩, ⟨_, rfl⟩⟩

/-- The same time twice, the least that is allowed. -/
theorem witness_HeartbeatTimeNeverGoesBack :
    ∃ t, exec (.rx 0x021 false 5 (five 1 0 0 0 8) 1000) (beat 1000) = .next t ∧
      (beat 1000).block.lastHb = some ⟨⟨1, 0, 0, 0, 7⟩, 1000⟩ ∧ t.block.lastHb = some ⟨⟨1, 0, 0, 0, 8⟩, 1000⟩ :=
  ⟨_, rfl, by decide⟩

theorem witness_SetFlagStaysUntilTheLastWaiterLeaves :
    (∃ t, exec (.waitObserve 24) (cell .alive true 1) = .next t ∧
      ((cell .alive true 1).block.cells.get .alive).flag = true ∧ Instr.waitObserve 24 ≠ .reset) ∧
    (∃ t, exec (.waitAbandon 24) (cell .alive true 2) = .next t ∧
      ((cell .alive true 2).block.cells.get .alive).flag = true ∧ Instr.waitAbandon 24 ≠ .reset) :=
  ⟨⟨_, rfl, by decide⟩, ⟨_, rfl, by decide⟩⟩

theorem witness_EncSelectsTheVariantByTag :
    (⟨0, 1, 2, 3, 4, 5, 6, 7⟩ : Bundle).tag = 0 ∧ (⟨1, 1, 2, 3, 4, 5, 6, 7⟩ : Bundle).tag = 1 ∧
    (⟨2, 1, 2, 3, 4, 5, 6, 7⟩ : Bundle).tag = 2 ∧ (⟨3, 1, 2, 3, 4, 5, 6, 7⟩ : Bundle).tag = 3 ∧
    (⟨4, 1, 2, 3, 4, 5, 6, 7⟩ : Bundle).tag = 4 ∧ (⟨5, 1, 2, 3, 4, 5, 6, 7⟩ : Bundle).tag = 5 ∧
    5 < (⟨6, 1, 2, 3, 4, 5, 6, 7⟩ : Bundle).tag.toNat := by decide

theorem witness_BundleOfAMessageIsReadBack :
    (bundleOf (.setParameter 7 256)).tag.toNat > 3 ∧ (bundleOf (.halt 255)).tag ≠ 1 ∧
    (bundleOf (.setIoState 255)).tag.toNat < 4 ∧ (bundleOf (.getParameter 255)).tag ≠ 4 := by decide

theorem witness_DecOneByteRows : (1 : Len) = 1 ∧ (0 : Len) ≠ 1 ∧ (2 : Len) ≠ 1 := by decide

theorem witness_DecHeartbeatRow : (5 : Len) = 5 ∧ (4 : Len) ≠ 5 ∧ (6 : Len) ≠ 5 := by decide

theorem witness_DecSetparamRow : (5 : Len) = 5 ∧ (4 : Len) ≠ 5 ∧ (15 : Len) ≠ 5 := by decide

theorem witness_UnassignedOpcodesAreUnknown : 5 < (0x006 : Ident).toNat % 32 ∧ 5 < (0x7FF : Ident).toNat % 32 := by decide

theorem witness_DecIsTotalAndOrdered :
    5 < (0x006 : Ident).toNat % 32 ∧
    ((0x005 : Ident).toNat % 32 ≤ 5 ∧
      (5 : Len).toNat ≠ (if (0x005 : Ident).toNat % 32 = 1 ∨ (0x005 : Ident).toNat % 32 = 4 then 5 else 1)) ∧
    ((0x024 : Ident).toNat % 32 ≤ 5 ∧
      (4 : Len).toNat ≠ (if (0x024 : Ident).toNat % 32 = 1 ∨ (0x024 : Ident).toNat % 32 = 4 then 5 else 1)) ∧
    (0x7E0 : Ident).toNat % 32 = 0 ∧ (0x021 : Ident).toNat % 32 = 1 ∧ (0x022 : Ident).toNat % 32 = 2 ∧
    (0x023 : Ident).toNat % 32 = 3 ∧ (0x024 : Ident).toNat % 32 = 4 ∧ (0x025 : Ident).toNat % 32 = 5 := by decide

/-- The last byte inside differs nowhere, the first byte beyond it differs. -/
theorem witness_LanesBeyondLenAreIgnored :
    (∀ k, k < (5 : Len).toNat → k < 8 →
      Payload.byte (five 1 2 3 4 5) k = Payload.byte (⟨1, 2, 3, 4, 5, 0xFF, 0, 0⟩ : Payload) k) ∧
    five 1 2 3 4 5 ≠ ⟨1, 2, 3, 4, 5, 0xFF, 0, 0⟩ := by decide

theorem witness_FramerRoundTrip :
    answers (.dec 0x024 5 (five 7 0xFE 0xFF 0xFF 0xFF)) (.message (.setParameter 7 0xFFFFFFFE)) := fun _ => rfl

/-- The last byte and the last word of a full payload. -/
theorem witness_PayloadReadAfterWrite : 8 ≤ 8 ∧ 7 + 1 ≤ 8 ∧ 4 + 4 ≤ 8 ∧ (3 < 8 ∧ (3 < 4 ∨ 4 + 4 ≤ 3)) := by decide

/-- The greatest time of 8 bits, the last step's and the last Heartbeat's, may be issued again. -/
theorem admits_busy : busy.admits 255 :=
  ⟨fun _ h => by cases h; decide, fun _ h => by cases h; decide, fun _ h => by cases h; decide⟩

/-- Right after reset every time may be issued. -/
theorem admits_reset (now : Nat) : State.reset.admits now :=
  ⟨(fun _ h => nomatch h), (fun _ h => nomatch h), (fun _ h => nomatch h)⟩

/-- The identifiers on both sides of this node's, and its first and last. -/
theorem witness_RxDropsFramesOfOtherNodes :
    busy.admits 255 ∧
    (0x01F : Ident).toNat / 32 ≠ busy.cfg.nodeId.toNat ∧ (0x040 : Ident).toNat / 32 ≠ busy.cfg.nodeId.toNat ∧
    ((0x020 : Ident).toNat / 32 = busy.cfg.nodeId.toNat ∧
      ∃ t, exec (.rx 0x020 false 1 (one 0) 255) busy = .next t) ∧
    ((0x03F : Ident).toNat / 32 = busy.cfg.nodeId.toNat ∧
      ∃ t, exec (.rx 0x03F true 1 (one 0) 255) busy = .next t) :=
  ⟨admits_busy, by decide, by decide, ⟨by decide, _, rfl⟩, ⟨by decide, _, rfl⟩⟩

theorem witness_RxDropsRemoteRequests :
    busy.admits 255 ∧ (0x03F : Ident).toNat / 32 = busy.cfg.nodeId.toNat := ⟨admits_busy, by decide⟩

theorem witness_RxDropsFramesThatDoNotDecode :
    State.reset.admits 0 ∧
    ((0x026 : Ident).toNat / 32 = State.reset.cfg.nodeId.toNat ∧ 5 < (0x026 : Ident).toNat % 32) ∧
    ((0x021 : Ident).toNat / 32 = State.reset.cfg.nodeId.toNat ∧ (0x021 : Ident).toNat % 32 ≤ 5 ∧
      (6 : Len).toNat ≠ (if (0x021 : Ident).toNat % 32 = 1 ∨ (0x021 : Ident).toNat % 32 = 4 then 5 else 1)) :=
  ⟨admits_reset 0, by decide⟩

theorem witness_RxDispatchesAHeartbeat :
    busy.admits 255 ∧ (0x021 : Ident).toNat / 32 = busy.cfg.nodeId.toNat ∧ (0x021 : Ident).toNat % 32 = 1 :=
  ⟨admits_busy, by decide⟩

theorem witness_RxDispatchesAnIoState :
    busy.admits 255 ∧ (0x022 : Ident).toNat / 32 = busy.cfg.nodeId.toNat ∧ (0x022 : Ident).toNat % 32 = 2 :=
  ⟨admits_busy, by decide⟩

theorem witness_RxOtherVariantsChangeNothing :
    State.reset.admits 5 ∧
    ((0x020 : Ident).toNat / 32 = State.reset.cfg.nodeId.toNat ∧ (0x020 : Ident).toNat % 32 = 0) ∧
    ((0x023 : Ident).toNat / 32 = State.reset.cfg.nodeId.toNat ∧ (0x023 : Ident).toNat % 32 = 3) ∧
    ((0x024 : Ident).toNat / 32 = State.reset.cfg.nodeId.toNat ∧ (0x024 : Ident).toNat % 32 = 4) ∧
    ((0x025 : Ident).toNat / 32 = State.reset.cfg.nodeId.toNat ∧ (0x025 : Ident).toNat % 32 = 5) :=
  ⟨admits_reset 5, by decide⟩

/-- One tick below the last step's time in a session without a Heartbeat, and one below the last Heartbeat's. -/
theorem witness_DecreasingNowIsRefused :
    ((∀ w, ({ State.reset with lastNow := some 1501 } : State).cfg.timeW = some w → 1500 < 2 ^ w) ∧
      ∃ n, ({ State.reset with lastNow := some 1501 } : State).lastNow = some n ∧ 1500 < n) ∧
    ((∀ w, busy.cfg.timeW = some w → 254 < 2 ^ w) ∧ ∃ r, busy.block.lastHb = some r ∧ 254 < r.time) :=
  ⟨⟨(fun _ h => nomatch h), 1501, rfl, by decide⟩, ⟨fun _ h => by cases h; decide, _, rfl, by decide⟩⟩

theorem witness_RxPulsesOnlyForReports :
    ∃ t, exec (.rx 0x022 false 1 (one 0x80) 0) State.reset = .next t ∧ t.out.events ≠ Events.none := ⟨_, rfl, by decide⟩

/-- From 0x05 to 0x06: pin 2 stays, pin 1 rises, pin 0 falls; by an IoState and by a Heartbeat. -/
theorem witness_OnePinOfAnUpdate :
    (∃ t, exec (.rx 0x022 false 1 (one 0x06) 0) (levels 0x05 0) = .next t ∧ t.out.result = .message (.ioState 0x06)) ∧
    (∃ t, exec (.rx 0x021 false 5 (five 1 0 0x06 0 0) 0) (levels 0x05 0) = .next t ∧
      t.out.result = .message (.heartbeat ⟨1, 0, 0x06, 0, 0⟩)) ∧
    (0x06 : Byte).getLsbD 2 = (levels 0x05 0).block.ioState.getLsbD 2 ∧
    ((levels 0x05 0).block.ioState.getLsbD 1 = false ∧ (0x06 : Byte).getLsbD 1 = true) ∧
    ((levels 0x05 0).block.ioState.getLsbD 0 = true ∧ (0x06 : Byte).getLsbD 0 = false) :=
  ⟨⟨_, rfl, rfl⟩, ⟨_, rfl, rfl⟩, by decide⟩

theorem witness_RaisesLatchOnlyForWaiters :
    ∃ t, exec (.rx 0x022 false 1 (one 0x80) 0) (cell (.rise 7) false 1) = .next t ∧
      t.out.events.names (.rise 7) = true ∧ t.out.events.names (.fall 7) = false := ⟨_, rfl, by decide⟩

theorem witness_ReportsAreNeverMerged :
    ∃ t u, exec (.rx 0x022 false 1 (one 0x01) 1) State.reset = .next t ∧ t.out.result = .message (.ioState 0x01) ∧
      exec (.rx 0x022 false 1 (one 0x00) 2) t = .next u ∧ u.out.result = .message (.ioState 0x00) :=
  ⟨_, _, rfl, rfl, rfl, rfl⟩

theorem witness_SignalNumbersNameTheCells : 24 < (25 : SigNum).toNat := by decide

/-- A reserved number; a counter of two bits with three waiters, which is full, and with two. -/
theorem witness_WaitEnterRegistersOneWaiter :
    24 < (25 : SigNum).toNat ∧ signalOf 24 = some .alive ∧
    (∃ w, (narrowed (cell .alive false 3)).cfg.waiterW = some w ∧
      ((narrowed (cell .alive false 3)).block.cells.get .alive).waiters = 2 ^ w - 1) ∧
    (∀ w, (narrowed (cell .alive false 2)).cfg.waiterW = some w →
      ((narrowed (cell .alive false 2)).block.cells.get .alive).waiters < 2 ^ w - 1) :=
  ⟨by decide, by decide, ⟨2, by decide⟩, fun _ h => by cases h; decide⟩

theorem witness_WaitObserveCompletesOneWait :
    24 < (25 : SigNum).toNat ∧ signalOf 23 = some (.change 7) ∧
    (State.reset.block.cells.get (.change 7)).waiters = 0 ∧
    (0 < ((cell (.change 7) false 1).block.cells.get (.change 7)).waiters ∧
      ((cell (.change 7) false 1).block.cells.get (.change 7)).flag = false) ∧
    (0 < ((cell (.change 7) true 1).block.cells.get (.change 7)).waiters ∧
      ((cell (.change 7) true 1).block.cells.get (.change 7)).flag = true) := by decide

theorem witness_WaitAbandonWithdrawsOneWaiter :
    24 < (31 : SigNum).toNat ∧ signalOf 8 = some (.fall 0) ∧ (State.reset.block.cells.get (.fall 0)).waiters = 0 ∧
    0 < ((cell (.fall 0) true 1).block.cells.get (.fall 0)).waiters := by decide

/-- The same schedule twice: the report raises the cell, and it does not. -/
theorem witness_EnteredTaskSeesExactlyTheRaise :
    signalOf 0 = some (.rise 0) ∧ State.reset.block.cells.get (.rise 0) = ⟨false, 0⟩ ∧
    (∃ s1 s2, exec (.waitEnter 0) State.reset = .next s1 ∧ exec (.rx 0x022 false 1 (one 0x01) 1) s1 = .next s2 ∧
      s2.out.events.names (.rise 0) = true) ∧
    (∃ s1 s2, exec (.waitEnter 0) State.reset = .next s1 ∧ exec (.rx 0x022 false 1 (one 0x02) 1) s1 = .next s2 ∧
      s2.out.events.names (.rise 0) = false) :=
  ⟨by decide, by decide, ⟨_, _, rfl, rfl, by decide⟩, ⟨_, _, rfl, rfl, by decide⟩⟩

theorem witness_ReadsAnswerTheRegisters :
    State.reset.block.hbValid = false ∧ (beat 9).block.lastHb = some ⟨⟨1, 0, 0, 0, 7⟩, 9⟩ := by decide

/-- No Heartbeat; a time before it, in a state that no run reaches; the ages 501 and 500. -/
theorem witness_ChkaliveOutcomes :
    ((∀ w, State.reset.cfg.timeW = some w → 999999 < 2 ^ w) ∧ (∀ n, State.reset.lastNow = some n → n ≤ 999999) ∧
      State.reset.block.lastHb = none) ∧
    ((∀ n, ({ beat 1000 with lastNow := some 999 } : State).lastNow = some n → n ≤ 999) ∧
      ({ beat 1000 with lastNow := some 999 } : State).block.lastHb = some ⟨⟨1, 0, 0, 0, 7⟩, 1000⟩ ∧ 999 < 1000) ∧
    ((∀ n, (beat 1000).lastNow = some n → n ≤ 1501) ∧ (beat 1000).block.lastHb = some ⟨⟨1, 0, 0, 0, 7⟩, 1000⟩ ∧
      1000 ≤ 1501 ∧ (beat 1000).cfg.aliveTicks < 1501 - 1000) ∧
    ((∀ n, (beat 1000).lastNow = some n → n ≤ 1500) ∧ 1000 ≤ 1500 ∧ 1500 - 1000 ≤ (beat 1000).cfg.aliveTicks) :=
  ⟨⟨(fun _ h => nomatch h), (fun _ h => nomatch h), rfl⟩, ⟨fun _ h => by cases h; decide, rfl, by decide⟩,
    ⟨fun _ h => by cases h; decide, rfl, by decide⟩, ⟨fun _ h => by cases h; decide, by decide⟩⟩

/-- The same, with a time of 8 bits at its greatest. -/
theorem witness_SetoutOutcomes :
    ((∀ w, (narrowed State.reset).cfg.timeW = some w → 255 < 2 ^ w) ∧
      (∀ n, (narrowed State.reset).lastNow = some n → n ≤ 255) ∧ (narrowed State.reset).block.lastHb = none) ∧
    ((∀ n, ({ beat 1000 with lastNow := some 999 } : State).lastNow = some n → n ≤ 999) ∧
      ({ beat 1000 with lastNow := some 999 } : State).block.lastHb = some ⟨⟨1, 0, 0, 0, 7⟩, 1000⟩ ∧ 999 < 1000) ∧
    ((∀ n, (beat 1000).lastNow = some n → n ≤ 1501) ∧ (beat 1000).block.lastHb = some ⟨⟨1, 0, 0, 0, 7⟩, 1000⟩ ∧
      1000 ≤ 1501 ∧ (beat 1000).cfg.aliveTicks < 1501 - 1000) ∧
    ((∀ n, (beat 1000).lastNow = some n → n ≤ 1500) ∧ 1000 ≤ 1500 ∧ 1500 - 1000 ≤ (beat 1000).cfg.aliveTicks) :=
  ⟨⟨fun _ h => by cases h; decide, (fun _ h => nomatch h), rfl⟩, ⟨fun _ h => by cases h; decide, rfl, by decide⟩,
    ⟨fun _ h => by cases h; decide, rfl, by decide⟩, ⟨fun _ h => by cases h; decide, by decide⟩⟩

theorem witness_SetoutAgreesWithChkalive : Status.noHeartbeat ≠ .ok ∧ Status.heartbeatTimeout ≠ .ok := by decide

theorem witness_WideNowIsRefused : (narrowed State.reset).cfg.timeW = some 8 ∧ 2 ^ 8 ≤ 256 := by decide

/-- The time may be any, one below the last session's too. -/
theorem witness_AfterResetTheDeviceIsNotAlive :
    ∃ t, exec .reset (beat 4000) = .next t ∧ ∀ w, t.cfg.timeW = some w → 3999 < 2 ^ w :=
  ⟨_, rfl, (fun _ h => nomatch h)⟩

theorem witness_ResetCancelsThePendingWaits :
    ∃ t, exec (.waitAbandon 24) (cell .alive true 1) = .next t ∧ Instr.waitAbandon 24 ≠ .reset := ⟨_, rfl, by decide⟩

theorem witness_ReservedCodeIsRefused : (issued .cmd [0x0F, 1]).pending = [⟨.cmd, 0x0F :: [1]⟩] := by decide

theorem witness_NowNeverDecreases :
    (∃ t, exec (.chkalive 1000) (beat 1000) = .next t ∧ timeOf (.chkalive 1000) = some 1000 ∧
      (beat 1000).lastNow = some 1000) ∧
    (∃ t, exec (.waitEnter 0) (beat 1000) = .next t ∧ timeOf (.waitEnter 0) = none ∧ Instr.waitEnter 0 ≠ .reset) ∧
    (∃ t, exec .reset (beat 1000) = .next t) := ⟨⟨_, rfl, by decide⟩, ⟨_, rfl, by decide⟩, ⟨_, rfl⟩⟩

/-- Two counts, one flag: `WAIT.OBSERVE` runs from both. Two flags: `WAIT.ABANDON` runs from both. -/
theorem witness_CountsAndFlagsAreNotShown :
    ((cell .alive true 2).cfg = (cell .alive true 1).cfg ∧
      (cell .alive true 2).block.ioState = (cell .alive true 1).block.ioState ∧
      (cell .alive true 2).block.prevState = (cell .alive true 1).block.prevState ∧
      (cell .alive true 2).block.lastHb = (cell .alive true 1).block.lastHb ∧
      (∀ c : Signal, ((cell .alive true 2).block.cells.get c).flag = ((cell .alive true 1).block.cells.get c).flag) ∧
      (∃ t, exec (.waitObserve 24) (cell .alive true 1) = .next t) ∧
      ∃ t, exec (.waitObserve 24) (cell .alive true 2) = .next t) ∧
    ((∀ sig, Instr.waitAbandon 24 ≠ .waitObserve sig) ∧
      (∃ t, exec (.waitAbandon 24) (cell .alive true 1) = .next t) ∧
      ∃ t, exec (.waitAbandon 24) (cell .alive false 1) = .next t) := by
  refine ⟨⟨rfl, rfl, rfl, rfl, fun c => ?_, ⟨_, rfl⟩, ⟨_, rfl⟩⟩, ⟨by simp, ⟨_, rfl⟩, ⟨_, rfl⟩⟩⟩
  cases c <;> rfl

end Sys2Proof.Tests
end

section
/-! SUPPORT. The rules the state statements of 10_state.md turn on: what a step does, what an operation does to each
register and to each cell, and what its output depends on. -/

namespace Sys2Proof.Machine

/-! ## A step -/

/-- With nothing issued, a step is the idle step. -/
theorem step_of_pending_nil {s : State} (h : s.pending = []) : step s = .next (answer s .none) := by
  simp [step, nextIssue, h]

/-- A step runs the operation that the oldest issue decodes to. -/
theorem step_of_pending_cons {s : State} {issue : Issue} {rest : List Issue} {i : Instr}
    (h : s.pending = issue :: rest) (hd : decode issue = .ok i) : step s = exec i { s with pending := rest } := by
  simp [step, nextIssue, h, hd]

/-- A step that answers a next state is idle, or runs the operation the oldest issue decodes to. -/
theorem step_next {s t : State} (h : step s = .next t) :
    (s.pending = [] ∧ t = answer s .none) ∨
    ∃ issue rest i, s.pending = issue :: rest ∧ decode issue = .ok i ∧
      exec i { s with pending := rest } = .next t := by
  cases hp : s.pending with
  | nil =>
    rw [step_of_pending_nil hp] at h
    cases h
    exact .inl ⟨rfl, rfl⟩
  | cons issue rest =>
    cases hd : decode issue with
    | error e => simp [step, nextIssue, hp, hd] at h
    | ok i => exact .inr ⟨issue, rest, i, rfl, hd, step_of_pending_cons hp hd ▸ h⟩

/-! ## The classes that hold one operation -/

section OpClass

variable {i : Instr}

theorem opClass_eq_reset_iff : opClass i = .reset ↔ i = .reset := by
  cases i <;> simp [opClass]

theorem opClass_eq_sessionWrite_iff :
    opClass i = .sessionWrite ↔ ∃ id rtr len data now, i = .rx id rtr len data now := by
  cases i <;> simp [opClass]

theorem opClass_eq_check_iff : opClass i = .check ↔ ∃ now, i = .chkalive now := by
  cases i <;> simp [opClass]

theorem opClass_eq_output_iff : opClass i = .output ↔ ∃ value now, i = .setout value now := by
  cases i <;> simp [opClass]

end OpClass

/-! ## The registers -/

/-- The construction parameters and the issues to come are as they were after every operation (R18, R20). -/
theorem exec_cfg_pending {i : Instr} {s t : State} (h : exec i s = .next t) :
    t.cfg = s.cfg ∧ t.pending = s.pending := by
  rcases exec_next_cases h with ⟨-, r, rfl⟩ | ⟨-, rfl⟩ | ⟨id, rtr, len, data, now, -, hx⟩ | ⟨sig, -, hx⟩ |
    ⟨sig, -, hx⟩ | ⟨sig, -, hx⟩
  · exact ⟨rfl, rfl⟩
  · exact ⟨rfl, rfl⟩
  · obtain ⟨-, hcfg, -, -, hpending, -⟩ := execRx_report hx
    exact ⟨hcfg, hpending⟩
  · obtain ⟨c, -, -, rfl⟩ := execWaitEnter_next hx
    exact ⟨rfl, rfl⟩
  · obtain ⟨c, -, -, ⟨-, rfl⟩ | ⟨-, rfl⟩⟩ := execWaitObserve_next hx <;> exact ⟨rfl, rfl⟩
  · obtain ⟨c, -, -, rfl⟩ := execWaitAbandon_next hx
    exact ⟨rfl, rfl⟩

/-- Only `RX` and `RESET` write `io_state`, `prev_state` and the heartbeat record (R22). -/
theorem exec_registers_kept {i : Instr} {s t : State} (h : exec i s = .next t) (hrx : opClass i ≠ .sessionWrite)
    (hreset : opClass i ≠ .reset) :
    t.block.ioState = s.block.ioState ∧ t.block.prevState = s.block.prevState ∧ t.block.lastHb = s.block.lastHb := by
  rcases exec_next_cases h with ⟨-, r, rfl⟩ | ⟨rfl, -⟩ | ⟨id, rtr, len, data, now, rfl, -⟩ | ⟨sig, -, hx⟩ |
    ⟨sig, -, hx⟩ | ⟨sig, -, hx⟩
  · exact ⟨rfl, rfl, rfl⟩
  · exact absurd rfl hreset
  · exact absurd rfl hrx
  · obtain ⟨c, -, -, rfl⟩ := execWaitEnter_next hx
    exact ⟨rfl, rfl, rfl⟩
  · obtain ⟨c, -, -, ⟨-, rfl⟩ | ⟨-, rfl⟩⟩ := execWaitObserve_next hx <;> exact ⟨rfl, rfl, rfl⟩
  · obtain ⟨c, -, -, rfl⟩ := execWaitAbandon_next hx
    exact ⟨rfl, rfl, rfl⟩

/-- An `RX` that answers a Heartbeat records it with its `now` (R106). -/
theorem execRx_heartbeat {id : Ident} {rtr : Bool} {len : Len} {data : Payload} {now : Nat} {s t : State}
    {hb : Heartbeat} (h : execRx id rtr len data now s = .next t) (hr : t.out.result = .message (.heartbeat hb)) :
    t.block.lastHb = some ⟨hb, now⟩ := by
  obtain ⟨-, -, -, -, -, -, ⟨-, hno, -⟩ | ⟨hb', hr', hrec, -⟩ | ⟨v, hr', -⟩⟩ := execRx_report h
  · exact absurd hr (hno hb)
  · obtain rfl : hb = hb' := by simpa using hr.symm.trans hr'
    exact hrec
  · simp [hr] at hr'

/-- The heartbeat record is kept, or written by an `RX` that answers a Heartbeat, or dropped by `RESET` (R13, R14). -/
theorem exec_lastHb_cases {i : Instr} {s t : State} (h : exec i s = .next t) :
    (i ≠ .reset ∧ t.block.lastHb = s.block.lastHb) ∨
    (∃ id rtr len data now hb, i = .rx id rtr len data now ∧ t.out.result = .message (.heartbeat hb) ∧
      t.block.lastHb = some ⟨hb, now⟩) ∨
    (i = .reset ∧ t.block.lastHb = none) := by
  by_cases hreset : opClass i = .reset
  · obtain rfl := opClass_eq_reset_iff.mp hreset
    cases h
    exact .inr (.inr ⟨rfl, rfl⟩)
  have hi : i ≠ .reset := mt opClass_eq_reset_iff.mpr hreset
  by_cases hrx : opClass i = .sessionWrite
  · obtain ⟨id, rtr, len, data, now, rfl⟩ := opClass_eq_sessionWrite_iff.mp hrx
    obtain ⟨-, -, -, -, -, -, ⟨ht, -⟩ | ⟨hb, hr, hrec, -⟩ | ⟨v, -, hrec, -⟩⟩ := execRx_report h
    · exact .inl ⟨hi, by rw [ht]; rfl⟩
    · exact .inr (.inl ⟨id, rtr, len, data, now, hb, rfl, hr, hrec⟩)
    · exact .inl ⟨hi, hrec⟩
  · obtain ⟨-, -, hkept⟩ := exec_registers_kept h hrx hreset
    exact .inl ⟨hi, hkept⟩

/-- The last `now` is that of an operation that carries one, which was admitted; forgotten by `RESET`; kept by any other
operation (R168; log 8). -/
theorem exec_lastNow_cases {i : Instr} {s t : State} (h : exec i s = .next t) :
    (∃ now, timeOf i = some now ∧ s.admits now ∧ t.lastNow = some now) ∨
    (timeOf i = none ∧ i ≠ .reset ∧ t.lastNow = s.lastNow) ∨
    (i = .reset ∧ t.lastNow = none) := by
  cases htime : timeOf i with
  | some now => exact .inl ⟨now, rfl, exec_admits h htime⟩
  | none =>
    rcases exec_next_cases h with ⟨hc, r, rfl⟩ | ⟨rfl, rfl⟩ | ⟨id, rtr, len, data, now, rfl, -⟩ | ⟨sig, rfl, hx⟩ |
      ⟨sig, rfl, hx⟩ | ⟨sig, rfl, hx⟩
    · refine .inr (.inl ⟨rfl, fun hreset => ?_, by simp [htime]⟩)
      simp [opClass_eq_reset_iff.mpr hreset] at hc
    · exact .inr (.inr ⟨rfl, rfl⟩)
    · simp [timeOf] at htime
    · obtain ⟨c, -, -, rfl⟩ := execWaitEnter_next hx
      exact .inr (.inl ⟨rfl, nofun, rfl⟩)
    · obtain ⟨c, -, -, ⟨-, rfl⟩ | ⟨-, rfl⟩⟩ := execWaitObserve_next hx <;> exact .inr (.inl ⟨rfl, nofun, rfl⟩)
    · obtain ⟨c, -, -, rfl⟩ := execWaitAbandon_next hx
      exact .inr (.inl ⟨rfl, nofun, rfl⟩)

/-! ## The cells -/

/-- What the operation `i` may make of the cell of the signal `c`. -/
inductive CellStep (i : Instr) (waiterW : Option Nat) (c : Signal) (old : Cell) : Cell → Prop where
  | kept : CellStep i waiterW c old old
  | raised (hi : opClass i = .sessionWrite) : CellStep i waiterW c old old.raise
  | cleared (hi : i = .reset) : CellStep i waiterW c old Cell.clear
  | entered (sig : SigNum) (hi : i = .waitEnter sig) (hsig : signalOf sig = some c)
      (hroom : old.full waiterW = false) : CellStep i waiterW c old old.enter
  | left (sig : SigNum) (hi : i = .waitObserve sig ∨ i = .waitAbandon sig) (hsig : signalOf sig = some c)
      (hwaiter : old.waiters ≠ 0) : CellStep i waiterW c old old.leave

/-- One cell replaced: that cell changes, and no other. -/
theorem setCell_get (s : State) (c d : Signal) (v : Cell) :
    (setCell s c v).block.cells.get d = if d = c then v else s.block.cells.get d := bank_get_set _ _ _ _

/-- Replacing the cell of `c` is a step of every cell, if it is one of that cell. -/
theorem cellStep_setCell {i : Instr} {s : State} {w : Option Nat} {c : Signal} {v : Cell}
    (h : CellStep i w c (s.block.cells.get c) v) (d : Signal) :
    CellStep i w d (s.block.cells.get d) ((setCell s c v).block.cells.get d) := by
  rw [setCell_get]
  split
  · subst d; exact h
  · exact .kept

/-- Every operation that answers a next state takes each cell by one of the steps a cell has (R124 to R127, R180). -/
theorem exec_cellStep {i : Instr} {s t : State} (h : exec i s = .next t) (c : Signal) :
    CellStep i s.cfg.waiterW c (s.block.cells.get c) (t.block.cells.get c) := by
  rcases exec_next_cases h with ⟨-, r, rfl⟩ | ⟨rfl, rfl⟩ | ⟨id, rtr, len, data, now, rfl, hx⟩ | ⟨sig, rfl, hx⟩ |
    ⟨sig, rfl, hx⟩ | ⟨sig, rfl, hx⟩
  · exact .kept
  · simpa using CellStep.cleared rfl
  · obtain ⟨-, -, -, -, -, hcells, -⟩ := execRx_report hx
    rw [hcells c]
    split
    · exact .raised rfl
    · exact .kept
  · obtain ⟨d, hd, hroom, rfl⟩ := execWaitEnter_next hx
    exact cellStep_setCell (.entered sig rfl hd hroom) c
  · obtain ⟨d, hd, hwaiter, ⟨-, rfl⟩ | ⟨-, rfl⟩⟩ := execWaitObserve_next hx
    · exact cellStep_setCell (.left sig (.inl rfl) hd hwaiter) c
    · exact .kept
  · obtain ⟨d, hd, hwaiter, rfl⟩ := execWaitAbandon_next hx
    exact cellStep_setCell (.left sig (.inr rfl) hd hwaiter) c

section CellStep

variable {i : Instr} {w : Option Nat} {c : Signal} {old new : Cell}

/-- A cell whose flag is set only with a waiter stays one (R16, R128 (a)). -/
theorem CellStep.flag_has_waiter (h : CellStep i w c old new) (hold : old.flag = true → 0 < old.waiters)
    (hnew : new.flag = true) : 0 < new.waiters := by
  cases h with
  | kept => exact hold hnew
  | raised =>
    rw [cell_raise_flag, Bool.or_eq_true, decide_eq_true_eq] at hnew
    rw [cell_raise_waiters]
    exact hnew.elim hold id
  | cleared => simp [Cell.clear] at hnew
  | entered => exact Nat.succ_pos _
  | left =>
    rw [cell_leave_flag, Bool.and_eq_true, decide_eq_true_eq] at hnew
    rw [cell_leave_waiters]
    omega

/-- A count that fits its counter stays one that does (R134). -/
theorem CellStep.waiters_fit {width : Nat} (h : CellStep i (some width) c old new) (hold : old.waiters < 2 ^ width) :
    new.waiters < 2 ^ width := by
  cases h with
  | kept => exact hold
  | raised => simpa using hold
  | cleared => exact Nat.two_pow_pos width
  | entered _ _ _ hroom => exact cell_not_full hroom
  | left =>
    rw [cell_leave_waiters]
    omega

/-- Only `RX` sets a flag (R22). -/
theorem CellStep.class_of_flag_set (h : CellStep i w c old new) (hold : old.flag = false) (hnew : new.flag = true) :
    opClass i = .sessionWrite := by
  cases h with
  | raised hi => exact hi
  | kept | cleared | entered | left => simp_all [Cell.clear, cell_leave_flag]

/-- Only `WAIT.*` and `RESET` clear a flag (R22). -/
theorem CellStep.class_of_flag_cleared (h : CellStep i w c old new) (hold : old.flag = true) (hnew : new.flag = false) :
    opClass i = .wait ∨ opClass i = .reset := by
  cases h with
  | kept | raised => simp_all [cell_raise_flag]
  | cleared hi => exact .inr (hi ▸ rfl)
  | entered sig hi => exact .inl (hi ▸ rfl)
  | left sig hi => rcases hi with rfl | rfl <;> exact .inl rfl

/-- Only `WAIT.*` and `RESET` change a count (R22). -/
theorem CellStep.class_of_waiters_changed (h : CellStep i w c old new) (hne : new.waiters ≠ old.waiters) :
    opClass i = .wait ∨ opClass i = .reset := by
  cases h with
  | kept | raised => simp at hne
  | cleared hi => exact .inr (hi ▸ rfl)
  | entered sig hi => exact .inl (hi ▸ rfl)
  | left sig hi => rcases hi with rfl | rfl <;> exact .inl rfl

end CellStep

/-! ## The invariant -/

/-- The invariant speaks of the parameters, the block and the last `now` only. -/
theorem State.Inv.congr {s t : State} (h : s.Inv) (hcfg : t.cfg = s.cfg) (hblock : t.block = s.block)
    (hnow : t.lastNow = s.lastNow) : t.Inv where
  flags := hblock ▸ h.flags
  counters := by simpa only [State.waitersFit, hcfg, hblock] using h.counters
  time := by simpa only [State.hbTimeFits, hcfg, hblock] using h.time
  lastNow := by simpa only [State.lastNowFits, hcfg, hnow] using h.lastNow
  past := by simpa only [State.hbTimeIsPast, hblock, hnow] using h.past

/-- The last `now` fits its port after every operation. -/
theorem exec_lastNowFits {i : Instr} {s t : State} (h : exec i s = .next t) (hs : s.lastNowFits) : t.lastNowFits := by
  intro w n hw hn
  rw [(exec_cfg_pending h).1] at hw
  rcases exec_lastNow_cases h with ⟨now, -, hadmits, hnow⟩ | ⟨-, -, hkept⟩ | ⟨-, hnone⟩
  · obtain rfl : now = n := by simpa using hnow.symm.trans hn
    exact hadmits.fits w hw
  · exact hs w n hw (hkept ▸ hn)
  · simp [hnone] at hn

/-- The last Heartbeat came no later than the last `now`, after every operation: a kept record lies before a `now` that
was admitted, and a new one has the `now` of its own step. -/
theorem exec_hbTimeIsPast {i : Instr} {s t : State} (h : exec i s = .next t) (hs : s.hbTimeIsPast) :
    t.hbTimeIsPast := by
  intro r hr
  rcases exec_lastHb_cases h with ⟨hi, hkept⟩ | ⟨id, rtr, len, data, now, hb, rfl, -, hrec⟩ | ⟨-, hnone⟩
  · rw [hkept] at hr
    rcases exec_lastNow_cases h with ⟨now, -, hadmits, hnow⟩ | ⟨-, -, hnow⟩ | ⟨hreset, -⟩
    · exact ⟨now, hnow, hadmits.heartbeat r hr⟩
    · exact hnow ▸ hs r hr
    · exact absurd hreset hi
  · obtain rfl : ⟨hb, now⟩ = r := by simpa using hrec.symm.trans hr
    exact ⟨now, (exec_admits h rfl).2, le_rfl⟩
  · simp [hnone] at hr

/-- A time not past the last `now` fits where the last `now` does (R15, R168). -/
theorem hbTimeFits_of_past {s : State} (hfits : s.lastNowFits) (hpast : s.hbTimeIsPast) : s.hbTimeFits := by
  intro w r hw hr
  obtain ⟨n, hn, hle⟩ := hpast r hr
  exact hle.trans_lt (hfits w n hw hn)

/-- Every operation keeps the invariant. -/
theorem exec_keeps_inv {i : Instr} {s t : State} (h : exec i s = .next t) (hs : s.Inv) : t.Inv where
  flags c := (exec_cellStep h c).flag_has_waiter (hs.flags c)
  counters w hw c := by
    rw [(exec_cfg_pending h).1] at hw
    exact (hw ▸ exec_cellStep h c).waiters_fit (hs.counters w hw c)
  time := hbTimeFits_of_past (exec_lastNowFits h hs.lastNow) (exec_hbTimeIsPast h hs.past)
  lastNow := exec_lastNowFits h hs.lastNow
  past := exec_hbTimeIsPast h hs.past

/-! ## The heartbeat record and `hb_valid` -/

/-- `hb_valid` is 0 exactly while the record holds no value (R14; log 6). -/
theorem hbValid_eq_false_iff {b : Session} : b.hbValid = false ↔ b.lastHb = none := by
  simp [Session.hbValid]

theorem hbValid_of_lastHb {b : Session} {r : HbRecord} (h : b.lastHb = some r) : b.hbValid = true := by
  simp [Session.hbValid, h]

/-! ## What an output depends on -/

/-- Two states agree in the parameters and in the registers that are no cells. -/
structure State.AgreeButCells (s s' : State) : Prop where
  cfg : s'.cfg = s.cfg
  ioState : s'.block.ioState = s.block.ioState
  prevState : s'.block.prevState = s.block.prevState
  lastHb : s'.block.lastHb = s.block.lastHb

/-- `DEC` answers the same from every state (R90, R182). -/
theorem reportDecoded_answers (id : Ident) (len : Len) (data : Payload) :
    ∃ r, ∀ s, reportDecoded s (decodeFrame id len data) = .next (answer s r) := by
  rcases decodeFrame_cases id len data with ⟨-, h⟩ | ⟨_, -, -, h⟩ | ⟨m, -, -, h⟩
  · exact ⟨.status .unknownOpcode, fun s => by rw [h]; rfl⟩
  · exact ⟨.status .lengthMismatch, fun s => by rw [h]; rfl⟩
  · exact ⟨.message m, fun s => by rw [h]; rfl⟩

/-- A codec operation answers the same result from every state (R182). -/
theorem exec_pureCodec_answers {i : Instr} (hc : opClass i = .pureCodec) : ∃ r, answers i r := by
  cases i
  case decHalt | decHeartbeat | decIostate | decSetiostate | decSetparam | decGetparam | unassigned6to7
    | unassigned8to15 | unassigned16to31 | dec => exact reportDecoded_answers _ _ _
  case enc node msg =>
    cases hm : messageOf msg with
    | none => exact ⟨.status .unknownMessageType, fun s => by simp [exec, execEnc, raiseError, answer, hm]⟩
    | some m => exact ⟨.frame (frameOf node m), fun s => by simp [exec, execEnc, answer, hm]⟩
  case encHalt | encHeartbeat | encIostate | encSetiostate | encSetparam | encGetparam | genid | splitid =>
    exact ⟨_, fun s => rfl⟩
  all_goals simp [opClass] at hc

/-- `SETOUT` shows the frame or the status of the liveness check, and no pulse (R142). -/
theorem execSetout_out {value : Byte} {now : Nat} {s t : State} (h : execSetout value now s = .next t) :
    t.out = ⟨if liveness s.cfg.aliveTicks s.block now = .ok then .frame (frameOf s.cfg.nodeId (.setIoState value))
      else .status (liveness s.cfg.aliveTicks s.block now), Events.none⟩ := by
  obtain ⟨-, hk⟩ := withTime_next h
  split at hk
  · rename_i hok
    cases hk
    exact (congrArg (Output.mk · Events.none) (if_pos hok)).symm
  · rename_i hne
    cases hk
    exact (congrArg (Output.mk · Events.none) (if_neg hne)).symm

/-- The liveness check reads the heartbeat record only. -/
theorem liveness_congr {b b' : Session} (h : b'.lastHb = b.lastHb) (ticks now : Nat) :
    liveness ticks b' now = liveness ticks b now := by
  unfold liveness
  rw [h]

/-- The dispatch shows the message and the edges from the levels before. -/
theorem dispatch_out_congr {s s' : State} (h : s'.block.ioState = s.block.ioState) (m : Message) (now : Nat) :
    (dispatch m now s').out = (dispatch m now s).out := by
  cases m <;> simp [dispatch, h]

section AgreeButCells

variable {s s' t t' : State}

/-- What `RX` shows depends on no cell. -/
theorem execRx_out_congr (ha : s.AgreeButCells s') {id : Ident} {rtr : Bool} {len : Len} {data : Payload} {now : Nat}
    (h : execRx id rtr len data now s = .next t) (h' : execRx id rtr len data now s' = .next t') : t'.out = t.out := by
  obtain ⟨-, hk⟩ := withTime_next h
  obtain ⟨-, hk'⟩ := withTime_next h'
  simp only [ha.cfg] at hk'
  by_cases hnode : splitNode id ≠ s.cfg.nodeId
  · rw [if_pos hnode] at hk hk'
    cases hk; cases hk'; rfl
  rw [if_neg hnode] at hk hk'
  cases rtr with
  | true => cases hk; cases hk'; rfl
  | false =>
    cases hd : decodeFrame id len data with
    | error st => simp only [hd] at hk hk'; cases hk; cases hk'; rfl
    | ok m? =>
      cases m? with
      | none => exact absurd hd (decodeFrame_ne_none id len data)
      | some m =>
        simp only [hd] at hk hk'
        cases hk; cases hk'
        refine dispatch_out_congr ?_ m now
        exact ha.ioState

/-- A read, a check, a command or a codec operation shows no cell. -/
theorem exec_pure_out_congr (ha : s.AgreeButCells s') {i : Instr}
    (hc : opClass i = .pureCodec ∨ opClass i = .registerRead ∨ opClass i = .check ∨ opClass i = .output)
    (h : exec i s = .next t) (h' : exec i s' = .next t') : t'.out = t.out := by
  rcases hc with hc | hc | hc | hc
  · obtain ⟨r, hr⟩ := exec_pureCodec_answers hc
    rw [hr] at h h'
    cases h; cases h'; rfl
  · cases i
    case rdIostate => cases h; cases h'; simp [ha.ioState]
    case rdPin => cases h; cases h'; simp [ha.ioState, ha.prevState]
    case rdHb => cases h; cases h'; simp [ha.lastHb]
    case rdNodeid => cases h; cases h'; simp [ha.cfg]
    all_goals simp [opClass] at hc
  · obtain ⟨now, rfl⟩ := opClass_eq_check_iff.mp hc
    obtain ⟨-, rfl⟩ := execChkalive_next h
    obtain ⟨-, rfl⟩ := execChkalive_next h'
    simp [ha.cfg, liveness_congr ha.lastHb]
  · obtain ⟨value, now, rfl⟩ := opClass_eq_output_iff.mp hc
    rw [execSetout_out h, execSetout_out h', ha.cfg, liveness_congr ha.lastHb]

/-- `WAIT.OBSERVE` shows the flag of its cell and nothing else. -/
theorem execWaitObserve_out_congr {sig : SigNum}
    (hflags : ∀ c : Signal, (s'.block.cells.get c).flag = (s.block.cells.get c).flag)
    (h : execWaitObserve sig s = .next t) (h' : execWaitObserve sig s' = .next t') : t'.out = t.out := by
  obtain ⟨c, hc, -, hout⟩ := execWaitObserve_next h
  obtain ⟨c', hc', -, hout'⟩ := execWaitObserve_next h'
  obtain rfl : c = c' := by simpa using hc.symm.trans hc'
  rw [hflags c] at hout'
  rcases hout with ⟨hf, rfl⟩ | ⟨hf, rfl⟩ <;> rcases hout' with ⟨hf', rfl⟩ | ⟨hf', rfl⟩
  · rfl
  · simp [hf] at hf'
  · simp [hf] at hf'
  · rfl

end AgreeButCells

/-! ## The statements -/

/-- Settles O6: a step is idle or runs an operation, and every operation keeps the invariant. -/
theorem stepKeepsTheInvariant : Obligations.StepKeepsTheInvariant := by
  intro s t hs h
  rcases step_next h with ⟨-, rfl⟩ | ⟨issue, rest, i, -, -, hx⟩
  · exact hs.congr rfl rfl rfl
  · exact exec_keeps_inv hx (hs.congr rfl rfl rfl)

/-- Settles O9. -/
theorem operationsKeepConfigurationAndQueue : Obligations.OperationsKeepConfigurationAndQueue :=
  fun _ _ _ h => exec_cfg_pending h

/-- Settles O10: the registers by the class of the operation, the cells by the steps a cell has. -/
theorem onlyRxAndResetWriteSessionData : Obligations.OnlyRxAndResetWriteSessionData := by
  intro i s t h
  refine ⟨fun hchanged => ?_, fun c => (exec_cellStep h c).class_of_flag_set,
    fun c => (exec_cellStep h c).class_of_flag_cleared, fun c => (exec_cellStep h c).class_of_waiters_changed,
    fun hc => ?_⟩
  · by_contra hclass
    obtain ⟨hrx, hreset⟩ := not_or.mp hclass
    obtain ⟨hio, hprev, hhb⟩ := exec_registers_kept h hrx hreset
    exact hchanged.elim (· hio) (Or.elim · (· hprev) (· hhb))
  · obtain ⟨r, rfl⟩ := exec_pure_next h hc
    rfl

/-- Settles O12: by what each operation does to the heartbeat record. -/
theorem heartbeatValidUntilReset : Obligations.HeartbeatValidUntilReset := by
  refine ⟨fun i s t h => ⟨?_, ?_, ?_, ?_⟩, fun s hs => ?_⟩
  · intro hs ht
    rcases exec_lastHb_cases h with ⟨-, hkept⟩ | ⟨id, rtr, len, data, now, hb, hi, hr, -⟩ | ⟨-, hnone⟩
    · rw [hbValid_eq_false_iff, ← hkept, ← hbValid_eq_false_iff, ht] at hs
      cases hs
    · exact ⟨id, rtr, len, data, now, hb, hi, hr⟩
    · rw [hbValid_eq_false_iff.mpr hnone] at ht
      cases ht
  · rintro id rtr len data now hb rfl hr
    exact hbValid_of_lastHb (execRx_heartbeat h hr)
  · intro hs hi
    rcases exec_lastHb_cases h with ⟨-, hkept⟩ | ⟨_, _, _, _, _, _, -, -, hrec⟩ | ⟨hreset, -⟩
    · rwa [Session.hbValid, hkept]
    · exact hbValid_of_lastHb hrec
    · exact absurd hreset hi
  · rintro rfl
    cases h
    rfl
  · have hnone := hbValid_eq_false_iff.mp hs
    exact ⟨hnone, by simp [exec, execRdHb, answer, hnone]⟩

/-- Settles O59: the operations without effect and `RX` read no cell, `RESET`, `WAIT.ENTER` and `WAIT.ABANDON` show
nothing, and `WAIT.OBSERVE` shows the flag, in which the states agree. -/
theorem countsAndFlagsAreNotShown : Obligations.CountsAndFlagsAreNotShown := by
  intro i s s' t t' hcfg hio hprev hhb hflags h h'
  have ha : s.AgreeButCells s' := ⟨hcfg, hio, hprev, hhb⟩
  rcases exec_next_cases h with ⟨hc, -⟩ | ⟨rfl, rfl⟩ | ⟨id, rtr, len, data, now, rfl, hx⟩ | ⟨sig, rfl, hx⟩ |
    ⟨sig, rfl, hx⟩ | ⟨sig, rfl, hx⟩
  · exact exec_pure_out_congr ha hc h h'
  · cases h'
    rfl
  · exact execRx_out_congr ha hx h'
  · obtain ⟨c, -, -, rfl⟩ := execWaitEnter_next hx
    obtain ⟨c', -, -, rfl⟩ := execWaitEnter_next h'
    rfl
  · exact execWaitObserve_out_congr (hflags.resolve_right fun hno => hno sig rfl) hx h'
  · obtain ⟨c, -, -, rfl⟩ := execWaitAbandon_next hx
    obtain ⟨c', -, -, rfl⟩ := execWaitAbandon_next h'
    rfl

/-- Settles O3. -/
theorem stepRunsTheDecodedOperation : Obligations.StepRunsTheDecodedOperation :=
  fun _ _ _ _ hp hd => step_of_pending_cons hp hd

/-- Settles O4. -/
theorem stepWithNothingIssuedHolds : Obligations.StepWithNothingIssuedHolds :=
  fun _ hp => step_of_pending_nil hp

/-- Settles O7: no flag is set, every count is 0, and there is neither a record nor a `now` to bound. -/
theorem resetStateHasTheInvariant : Obligations.ResetStateHasTheInvariant where
  flags c := by simp [State.reset, Cell.clear]
  counters w _ c := by simp [State.reset, Cell.clear]
  time _ _ _ hr := nomatch hr
  lastNow _ _ _ hn := nomatch hn
  past _ hr := nomatch hr

/-- Settles O56: the registers by evaluation, the cells and the account by what a uniform bank holds. -/
theorem machineResetState : Obligations.MachineResetState :=
  ⟨rfl, rfl, rfl, bank_get_all Cell.clear, rfl, bank_get_all 0, rfl, rfl, rfl⟩

end Sys2Proof.Machine
end

section
/-! SUPPORT. The rules the payload statements of 20_memory.md turn on: what each read and each write does at an offset,
and what the decoder depends on. -/

namespace Sys2Proof.Machine

/-! ## What the decoder depends on -/

/-- Two payloads of `len` bytes hold the same bytes: the lanes at or beyond `len` may differ (R39). -/
def Payload.AgreeBelow (len : Nat) (p q : Payload) : Prop :=
  ∀ k, k < len → k < 8 → Payload.byte p k = Payload.byte q k

section AgreeBelow

variable {len : Nat} {p q : Payload} (h : Payload.AgreeBelow len p q)

include h

/-- `MemRead` of one byte reads below `len` (R35). -/
theorem memRead8_congr (off : Nat) : memRead8 len p off = memRead8 len q off := by
  unfold memRead8
  split
  · rw [h off (by omega) (by omega)]
  · rfl

/-- `MemRead` of four bytes reads below `len` (R35). -/
theorem memRead32_congr (off : Nat) : memRead32 len p off = memRead32 len q off := by
  unfold memRead32
  split
  · rw [h off (by omega) (by omega), h (off + 1) (by omega) (by omega), h (off + 2) (by omega) (by omega),
      h (off + 3) (by omega) (by omega)]
  · rfl

/-- Every variant is read by `MemRead` alone (R94 to R99). -/
theorem readMessage_payload_congr (op : Opcode) : readMessage op len p = readMessage op len q := by
  simp only [readMessage, readHeartbeat, memRead8_congr h, memRead32_congr h]

end AgreeBelow

/-- `DEC` looks at the bytes below `len` only (R39). -/
theorem decodeFrame_payload_congr {len : Len} {p q : Payload} (h : Payload.AgreeBelow len.toNat p q) (id : Ident) :
    decodeFrame id len p = decodeFrame id len q := by
  simp only [decodeFrame, readMessage_payload_congr h]

/-! ## Reads after writes -/

section ReadAfterWrite

variable {p : Payload} {len off : Nat}

/-- A write of four bytes, offset by offset: the slice of the pattern inside the four, the old byte outside (R36). -/
theorem byte_memWrite32 (v : Word32) (ho : off + 4 ≤ 8) {k : Nat} (hk : k < 8) :
    Payload.byte (memWrite32 p off v) k =
      if off ≤ k ∧ k < off + 4 then v.extractLsb' (8 * (k - off)) 8 else Payload.byte p k := by
  unfold memWrite32
  rw [byte_setByte _ _ _ _ (by omega) hk, byte_setByte _ _ _ _ (by omega) hk, byte_setByte _ _ _ _ (by omega) hk,
    byte_setByte _ _ _ _ (by omega) hk]
  by_cases hin : off ≤ k ∧ k < off + 4
  · have hcases : k = off ∨ k = off + 1 ∨ k = off + 2 ∨ k = off + 3 := by omega
    rcases hcases with rfl | rfl | rfl | rfl <;> simp
  · rw [if_neg hin, if_neg (by omega), if_neg (by omega), if_neg (by omega), if_neg (by omega)]

/-- Inside the four bytes written stands the slice of the pattern, the first the least significant (R31, R36). -/
theorem byte_memWrite32_inside (v : Word32) (ho : off + 4 ≤ 8) {j : Nat} (hj : j < 4) :
    Payload.byte (memWrite32 p off v) (off + j) = v.extractLsb' (8 * j) 8 := by
  rw [byte_memWrite32 v ho (by omega), if_pos (by omega), Nat.add_sub_cancel_left]

/-- Outside the four bytes written nothing changes (R36). -/
theorem byte_memWrite32_outside (v : Word32) (ho : off + 4 ≤ 8) {k : Nat} (hk : k < 8) (hout : k < off ∨ off + 4 ≤ k) :
    Payload.byte (memWrite32 p off v) k = Payload.byte p k := by
  rw [byte_memWrite32 v ho hk, if_neg (by omega)]

/-- A byte read after a byte was written (R35, R36). -/
theorem memRead8_memWrite8 (v : Byte) (hlen : len ≤ 8) (ho : off < len) {k : Nat} (hk : k < len) :
    memRead8 len (memWrite8 p off v) k = some (if k = off then v else Payload.byte p k) := by
  rw [memRead8_of_le hk (by omega)]
  exact congrArg some (byte_setByte p off k v (by omega) (by omega))

/-- Four bytes written and read back are the pattern (R31, R35, R36). -/
theorem memRead32_memWrite32 (v : Word32) (hlen : len ≤ 8) (ho : off + 4 ≤ len) :
    memRead32 len (memWrite32 p off v) off = some v := by
  have h8 : off + 4 ≤ 8 := by omega
  rw [memRead32_of_le ho h8, byte_memWrite32_inside v h8 (j := 3) (by decide),
    byte_memWrite32_inside v h8 (j := 2) (by decide), byte_memWrite32_inside v h8 (j := 1) (by decide),
    show Payload.byte (memWrite32 p off v) off = _ from byte_memWrite32_inside v h8 (j := 0) (by decide)]
  exact congrArg some (word32_of_slices v)

end ReadAfterWrite

/-! ## The statements -/

/-- Settles O28: `DEC` reads below `len`, and `RX` sees the payload through `DEC` alone. -/
theorem lanesBeyondLenAreIgnored : Obligations.LanesBeyondLenAreIgnored := by
  intro id len p q s h
  have hdec : decodeFrame id len p = decodeFrame id len q := decodeFrame_payload_congr h id
  exact ⟨by simp only [exec, execDec, hdec], fun rtr now => by simp only [exec, execRx, hdec]⟩

/-- Settles O30: each read meets its precondition, and the bytes after a write are known offset by offset. -/
theorem payloadReadAfterWrite : Obligations.PayloadReadAfterWrite := by
  intro p len off hlen
  refine ⟨fun ho v k hk => memRead8_memWrite8 v hlen ho hk,
    fun ho v => ⟨memRead32_memWrite32 v hlen ho, fun j hj => ?_, fun k hk hout => ?_⟩⟩
  · rw [memRead8_of_le (by omega) (by omega), byte_memWrite32_inside v (by omega) hj]
  · rw [memRead8_of_le hk (by omega), byte_memWrite32_outside v (by omega) (by omega) hout]

end Sys2Proof.Machine
end

section
/-! SUPPORT. The rules the encoding statements of 30_encoding.md turn on: that the decoder inverts the encoder, which cell
a signal number names, and what an output bundle carries. -/

namespace Sys2Proof

/-! ## The decoder inverts the encoder -/

/-- One round trip for each row of the table (`Laws.RoundTrip`). -/
theorem decode_encode (i : Instr) : decode (encode i) = .ok i :=
  match i with
  | .encHalt node v => Laws.RoundTrip.encHalt node v
  | .encHeartbeat node dt dir io err cnt => Laws.RoundTrip.encHeartbeat node dt dir io err cnt
  | .encIostate node v => Laws.RoundTrip.encIostate node v
  | .encSetiostate node v => Laws.RoundTrip.encSetiostate node v
  | .encSetparam node p v => Laws.RoundTrip.encSetparam node p v
  | .encGetparam node p => Laws.RoundTrip.encGetparam node p
  | .decHalt node len data => Laws.RoundTrip.decHalt node len data
  | .decHeartbeat node len data => Laws.RoundTrip.decHeartbeat node len data
  | .decIostate node len data => Laws.RoundTrip.decIostate node len data
  | .decSetiostate node len data => Laws.RoundTrip.decSetiostate node len data
  | .decSetparam node len data => Laws.RoundTrip.decSetparam node len data
  | .decGetparam node len data => Laws.RoundTrip.decGetparam node len data
  | .unassigned6to7 node x len data => Laws.RoundTrip.unassigned6to7 node x len data
  | .unassigned8to15 node x len data => Laws.RoundTrip.unassigned8to15 node x len data
  | .unassigned16to31 node x len data => Laws.RoundTrip.unassigned16to31 node x len data
  | .reset => Laws.RoundTrip.reset
  | .rx id rtr len data now => Laws.RoundTrip.rx id rtr len data now
  | .setout value now => Laws.RoundTrip.setout value now
  | .chkalive now => Laws.RoundTrip.chkalive now
  | .waitEnter sig => Laws.RoundTrip.waitEnter sig
  | .waitObserve sig => Laws.RoundTrip.waitObserve sig
  | .waitAbandon sig => Laws.RoundTrip.waitAbandon sig
  | .rdIostate => Laws.RoundTrip.rdIostate
  | .rdPin n => Laws.RoundTrip.rdPin n
  | .rdHb => Laws.RoundTrip.rdHb
  | .rdNodeid => Laws.RoundTrip.rdNodeid
  | .genid node op => Laws.RoundTrip.genid node op
  | .splitid id => Laws.RoundTrip.splitid id
  | .enc node msg => Laws.RoundTrip.enc node msg
  | .dec id len data => Laws.RoundTrip.dec id len data
  | .reservedCmd => Laws.RoundTrip.reservedCmd

/-- An issue that the encoder writes for an operation decodes to that operation. -/
theorem decode_of_encode_eq {issue : Issue} {i : Instr} (h : encode i = issue) : decode issue = .ok i :=
  h ▸ decode_encode i

/-- The reserved code has no operands: the lanes after it are ignored (R62). -/
theorem decode_reservedCmd (more : List Byte) : decode ⟨.cmd, 0x0F :: more⟩ = .ok .reservedCmd :=
  Laws.RoundTrip.decode_cmdIssue 0xF more

namespace Machine

/-! ## The cell a signal number names -/

section SignalOf

variable {sig : SigNum}

theorem signalOf_eq_rise {n : Fin 8} (h : sig.toNat = n) : signalOf sig = some (.rise n) := by
  simp [signalOf, h]

theorem signalOf_eq_fall {n : Fin 8} (h : sig.toNat = 8 + n) : signalOf sig = some (.fall n) := by
  simp [signalOf, h]

theorem signalOf_eq_change {n : Fin 8} (h : sig.toNat = 16 + n) : signalOf sig = some (.change n) := by
  have h8 : ¬ 16 + (n : Nat) < 8 := by omega
  have h16 : ¬ 16 + (n : Nat) - 8 < 8 := by omega
  simp [signalOf, h, h8, h16]

/-- The numbers above 24 lie beyond the three groups of eight and `alive` (R63). -/
theorem signalOf_eq_none (h : 24 < sig.toNat) : signalOf sig = none := by
  unfold signalOf
  rw [dif_neg (by omega), dif_neg (by omega), dif_neg (by omega), if_neg (by omega)]

end SignalOf

/-! ## The bundle of a message -/

@[simp] theorem messageOf_bundleOf (m : Message) : messageOf (bundleOf m) = some m := by
  cases m <;> rfl

/-- The tag is the opcode of one of the six variants (R56). -/
theorem bundleOf_tag_le (m : Message) : (bundleOf m).tag.toNat ≤ 5 := by
  cases m <;> simp [bundleOf]

/-- Only SetParameter (4) and GetParameter (5) carry no pin levels. -/
theorem bundleOf_ioState_of_tag : ∀ m : Message, 3 < (bundleOf m).tag.toNat → (bundleOf m).ioState = 0
  | .setParameter _ _, _ | .getParameter _, _ => rfl
  | .halt _, h | .heartbeat _, h | .ioState _, h | .setIoState _, h => by simp [bundleOf] at h

/-- Only a Heartbeat (1) carries the four lanes of its own. -/
theorem bundleOf_heartbeat_lanes_of_tag : ∀ m : Message, (bundleOf m).tag ≠ 1 →
    (bundleOf m).deviceType = 0 ∧ (bundleOf m).ioDir = 0 ∧ (bundleOf m).errors = 0 ∧ (bundleOf m).counter = 0
  | .heartbeat _, h => absurd rfl h
  | .halt _, _ | .ioState _, _ | .setIoState _, _ | .setParameter _ _, _ | .getParameter _, _ => ⟨rfl, rfl, rfl, rfl⟩

/-- Only SetParameter (4) and GetParameter (5) carry a parameter number. -/
theorem bundleOf_paramId_of_tag : ∀ m : Message, (bundleOf m).tag.toNat < 4 → (bundleOf m).paramId = 0
  | .setParameter _ _, h | .getParameter _, h => by simp [bundleOf] at h
  | .halt _, _ | .heartbeat _, _ | .ioState _, _ | .setIoState _, _ => rfl

/-- Only SetParameter (4) carries a value. -/
theorem bundleOf_value_of_tag : ∀ m : Message, (bundleOf m).tag ≠ 4 → (bundleOf m).value = 0
  | .setParameter _ _, h => absurd rfl h
  | .halt _, _ | .heartbeat _, _ | .ioState _, _ | .setIoState _, _ | .getParameter _, _ => rfl

/-! ## The statements -/

/-- Settles O1. -/
theorem decodeOfEncodeIsTheOperation : Obligations.DecodeOfEncodeIsTheOperation := decode_encode

/-- Settles O2: each of the eight words is the one the encoder writes. -/
theorem wordsOfTheTableDecode : Obligations.WordsOfTheTableDecode :=
  ⟨decode_of_encode_eq rfl, decode_of_encode_eq rfl, decode_of_encode_eq rfl, decode_of_encode_eq rfl,
    decode_of_encode_eq rfl, decode_of_encode_eq rfl, decode_of_encode_eq rfl, decode_of_encode_eq rfl⟩

/-- Settles O22: the message read back, then the lanes of the bundle by the tags they are valid for. -/
theorem bundleOfAMessageIsReadBack : Obligations.BundleOfAMessageIsReadBack := fun m =>
  ⟨messageOf_bundleOf m, bundleOf_tag_le m, bundleOf_ioState_of_tag m, bundleOf_heartbeat_lanes_of_tag m,
    bundleOf_paramId_of_tag m, bundleOf_value_of_tag m⟩

/-- Settles O42: none of the numbers 0 to 23 is cut off in five bits, so each names the cell of its group. -/
theorem signalNumbersNameTheCells : Obligations.SignalNumbersNameTheCells := by
  have toNat_small {k : Nat} (hk : k < 32) : (BitVec.ofNat 5 k).toNat = k := Nat.mod_eq_of_lt hk
  exact ⟨fun n => ⟨signalOf_eq_rise (toNat_small (by omega)), signalOf_eq_fall (toNat_small (by omega)),
    signalOf_eq_change (toNat_small (by omega))⟩, rfl, fun _ => signalOf_eq_none⟩

/-- Settles O55: the second clause is the first, of the operation the step decodes. -/
theorem reservedCodeIsRefused : Obligations.ReservedCodeIsRefused :=
  ⟨fun _ => rfl, fun _ more _ hp => step_of_pending_cons hp (decode_reservedCmd more)⟩

/-- Settles O57: the list of codes, by evaluation of `Status.code` at each status. -/
theorem statusCodesAreTheTable : Obligations.StatusCodesAreTheTable := rfl

end Machine

end Sys2Proof
end

section
/-! SUPPORT. The rules the identifier statements of 40_id_codec.md turn on: which lanes the decoder refuses, and what the
two operations answer. -/

namespace Sys2Proof

/-! ## Operands wider than their ports -/

/-- A lane that fits its field is read. -/
theorem field_of_lt {w : Nat} {e : DecodeError} {ls : List Byte} {k : Nat} {b : Byte} (h : ls[k]? = some b)
    (hb : b.toNat < 2 ^ w) : field w e ls k = .ok (BitVec.ofNat w b.toNat) := by
  simp [field, lane_of_getElem? h, bind, Except.bind, narrow_of_lt hb]

/-- Two bytes put together sum up to the value of an identifier's lanes, the low byte first (log 2). -/
theorem ident_of_bytes_toNat (lo hi : Byte) : (hi ++ lo).toNat = lo.toNat + 256 * hi.toNat := by
  rw [BitVec.toNat_append, ← Nat.shiftLeft_add_eq_or_of_lt lo.isLt, Nat.shiftLeft_eq]
  omega

/-- Two lanes that make more than 0x7FF are no identifier (R72). -/
theorem identField_of_wide {ls : List Byte} {k : Nat} {lo hi : Byte} (h0 : ls[k]? = some lo)
    (h1 : ls[k + 1]? = some hi) (h : 0x7FF < lo.toNat + 256 * hi.toNat) : identField ls k = .error .wideIdent := by
  have hwide : 2 ^ 11 ≤ (hi ++ lo).toNat := by
    rw [ident_of_bytes_toNat]
    omega
  simp only [identField, lane_of_getElem? h0, lane_of_getElem? h1, bind, Except.bind, narrow_of_le hwide]

section Genid

variable {node op : Byte} (more : List Byte)

theorem decode_genid_of_wideNode (h : 63 < node.toNat) :
    decode ⟨.cmd, 0x0B :: node :: op :: more⟩ = .error .wideNode := by
  have hnode : field 6 .wideNode (fieldLane 0xB#4 :: node :: op :: more) 1 = .error .wideNode := field_of_wide rfl h
  refine (Laws.RoundTrip.decode_cmdIssue 0xB (node :: op :: more)).trans ?_
  simp [cmdRow, hnode, bind, Except.bind]

/-- The node's lane is read first, so it has to fit for the opcode's lane to be the one refused. -/
theorem decode_genid_of_wideOpcode (hn : node.toNat ≤ 63) (h : 31 < op.toNat) :
    decode ⟨.cmd, 0x0B :: node :: op :: more⟩ = .error .wideOpcode := by
  have hnode : field 6 .wideNode (fieldLane 0xB#4 :: node :: op :: more) 1 = .ok (BitVec.ofNat 6 node.toNat) :=
    field_of_lt rfl (Nat.lt_succ_of_le hn)
  have hop : field 5 .wideOpcode (fieldLane 0xB#4 :: node :: op :: more) 2 = .error .wideOpcode := field_of_wide rfl h
  refine (Laws.RoundTrip.decode_cmdIssue 0xB (node :: op :: more)).trans ?_
  simp [cmdRow, hnode, hop, bind, Except.bind]

/-- A `GENID` with a node or an opcode wider than its port is refused by the name of that operand (R72). -/
theorem decode_genid_of_wide (h : 63 < node.toNat ∨ 31 < op.toNat) :
    ∃ e, decode ⟨.cmd, 0x0B :: node :: op :: more⟩ = .error e := by
  by_cases hnode : 63 < node.toNat
  · exact ⟨_, decode_genid_of_wideNode more hnode⟩
  · exact ⟨_, decode_genid_of_wideOpcode more (Nat.le_of_not_lt hnode) (h.resolve_left hnode)⟩

end Genid

/-- A `SPLITID` with an identifier wider than its port is refused by name (R72). -/
theorem decode_splitid_of_wide {lo hi : Byte} (more : List Byte) (h : 0x7FF < lo.toNat + 256 * hi.toNat) :
    decode ⟨.cmd, 0x0C :: lo :: hi :: more⟩ = .error .wideIdent := by
  have hid : identField (fieldLane 0xC#4 :: lo :: hi :: more) 1 = .error .wideIdent := identField_of_wide rfl rfl h
  refine (Laws.RoundTrip.decode_cmdIssue 0xC (lo :: hi :: more)).trans ?_
  simp [cmdRow, hid, bind, Except.bind]

namespace Machine

/-- Lanes that are no operation are refused by the decoder's name for what is wrong with them. -/
theorem step_of_decode_error {s : State} {issue : Issue} {rest : List Issue} {e : DecodeError}
    (h : s.pending = issue :: rest) (hd : decode issue = .error e) : step s = .refused (.malformed e) := by
  simp [step, nextIssue, h, hd]

/-! ## What the two operations answer -/

theorem answers_genid (node : NodeId) (op : Opcode) : answers (.genid node op) (.ident (genId node op)) :=
  fun _ => rfl

theorem answers_splitid (id : Ident) : answers (.splitid id) (.split (splitNode id) (splitOpcode id)) :=
  fun _ => rfl

/-- `SPLITID` undoes `GENID` (R73). -/
theorem answers_splitid_genId (node : NodeId) (op : Opcode) :
    answers (.splitid (genId node op)) (.split node op) := by
  have h := answers_splitid (genId node op)
  rwa [splitNode_genId, splitOpcode_genId] at h

/-- `GENID` undoes `SPLITID` (R73). -/
theorem answers_genid_split (id : Ident) : answers (.genid (splitNode id) (splitOpcode id)) (.ident id) := by
  have h := answers_genid (splitNode id) (splitOpcode id)
  rwa [genId_split] at h

/-! ## The statements -/

/-- Settles O5: the decoder refuses the lanes, so the step does. -/
theorem wideIdentifierOperandsAreRefused : Obligations.WideIdentifierOperandsAreRefused := by
  refine ⟨fun s node op more rest hp hwide => ?_, fun s lo hi more rest hp hwide => ?_⟩
  · obtain ⟨e, hd⟩ := decode_genid_of_wide more hwide
    exact ⟨e, step_of_decode_error hp hd⟩
  · exact ⟨_, step_of_decode_error hp (decode_splitid_of_wide more hwide)⟩

/-- Settles O17: what one operation answers, given to the other. -/
theorem genidAndSplitidAreInverse : Obligations.GenidAndSplitidAreInverse :=
  ⟨fun node op => ⟨genId node op, answers_genid node op, answers_splitid_genId node op⟩,
    fun id => ⟨splitNode id, splitOpcode id, answers_splitid id, answers_genid_split id⟩⟩

/-- Settles O15. -/
theorem genidPacksNodeAndOpcode : Obligations.GenidPacksNodeAndOpcode :=
  fun node op => ⟨genId node op, answers_genid node op, genId_toNat node op⟩

/-- Settles O16. -/
theorem splitidTakesTheIdentifierApart : Obligations.SplitidTakesTheIdentifierApart :=
  fun id => ⟨splitNode id, splitOpcode id, answers_splitid id, splitNode_toNat id, splitOpcode_toNat id⟩

end Machine

end Sys2Proof
end

section
/-! SUPPORT. The rules the transmit statements of 41_encode.md turn on: what `ENC` answers, what the frame of each format
holds, and which payload carries which message, in both directions of the framer. -/

namespace Sys2Proof.Machine

/-! ## What `ENC` answers -/

theorem answers_enc {b : Bundle} {m : Message} (node : NodeId) (h : messageOf b = some m) :
    answers (.enc node b) (.frame (frameOf node m)) :=
  fun s => by simp [exec, execEnc, answer, h]

theorem answers_enc_of_no_message {b : Bundle} (node : NodeId) (h : messageOf b = none) :
    answers (.enc node b) (.status .unknownMessageType) :=
  fun s => by simp [exec, execEnc, raiseError, answer, h]

/-- The message of a bundle whose tag is known is found by evaluation (R65). -/
theorem messageOf_of_tag {b : Bundle} {tag : Opcode} (h : b.tag = tag) : messageOf b = messageOf { b with tag := tag } :=
  h ▸ rfl

/-- No variant has a tag above 5 (R87). -/
theorem messageOf_eq_none {b : Bundle} (h : 5 < b.tag.toNat) : messageOf b = none := by
  unfold messageOf
  split
  case h_7 => rfl
  all_goals omega

/-! ## The frames of the three formats -/

section Formats

variable {i : Instr} {node : NodeId}

/-- Format `F1` (R57): one byte, the lanes beyond it 0. -/
theorem sendsFrame_frameF1 (op : Opcode) {v : Byte} (h : answers i (.frame (frameF1 node op v))) :
    sendsFrame i node op.toNat 1 ⟨v, 0, 0, 0, 0, 0, 0, 0⟩ :=
  ⟨_, h, genId_toNat node op, rfl, rfl, rfl⟩

/-- Format `F5H` (R58): the five fields of a Heartbeat in their order. -/
theorem sendsFrame_frameF5H {hb : Heartbeat} (h : answers i (.frame (frameF5H node hb))) :
    sendsFrame i node 1 5 ⟨hb.deviceType, hb.ioDir, hb.ioState, hb.errors, hb.counter, 0, 0, 0⟩ :=
  ⟨_, h, genId_toNat node 1, rfl, rfl, rfl⟩

/-- The four slices of a pattern sum up to it, the first the least significant (R31). -/
theorem word32_slices_toNat (v : Word32) :
    v.toNat = (v.extractLsb' 0 8).toNat + 2 ^ 8 * (v.extractLsb' 8 8).toNat + 2 ^ 16 * (v.extractLsb' 16 8).toNat +
      2 ^ 24 * (v.extractLsb' 24 8).toNat :=
  (congrArg BitVec.toNat (word32_of_slices v)).symm.trans (word32_of_bytes_toNat _ _ _ _)

/-- Format `F5P` (R59): the parameter number, then the four slices of the value. -/
theorem sendsFrame_frameF5P {paramId : Byte} {value : Word32} (h : answers i (.frame (frameF5P node paramId value))) :
    ∃ v0 v1 v2 v3 : Byte, sendsFrame i node 4 5 ⟨paramId, v0, v1, v2, v3, 0, 0, 0⟩ ∧
      value.toNat = v0.toNat + 2 ^ 8 * v1.toNat + 2 ^ 16 * v2.toNat + 2 ^ 24 * v3.toNat :=
  ⟨_, _, _, _, ⟨_, h, genId_toNat node 4, rfl, rfl, rfl⟩, word32_slices_toNat value⟩

end Formats

/-! ## The frame of a message -/

theorem frameOf_id (node : NodeId) (m : Message) : (frameOf node m).id = genId node (bundleOf m).tag := by
  cases m <;> rfl

theorem frameOf_rtr (node : NodeId) (m : Message) : (frameOf node m).rtr = false := by
  cases m <;> rfl

theorem frameOf_len (node : NodeId) (m : Message) :
    (frameOf node m).len = if (bundleOf m).tag = 1 ∨ (bundleOf m).tag = 4 then 5 else 1 := by
  cases m <;> rfl

/-! ## Which payload carries which message -/

/-- The first `size` bytes of the payload are those of the message of opcode `op` (R56): the size and the fields of each
variant. -/
inductive Carries (p : Payload) : (op : Opcode) → (size : Nat) → Message → Prop where
  | halt : Carries p 0 1 (.halt p.b0)
  | heartbeat : Carries p 1 5 (.heartbeat ⟨p.b0, p.b1, p.b2, p.b3, p.b4⟩)
  | ioState : Carries p 2 1 (.ioState p.b0)
  | setIoState : Carries p 3 1 (.setIoState p.b0)
  | setParameter : Carries p 4 5 (.setParameter p.b0 (p.b4 ++ p.b3 ++ p.b2 ++ p.b1))
  | getParameter : Carries p 5 1 (.getParameter p.b0)

section Carries

variable {p : Payload} {op : Opcode} {size : Nat} {m : Message}

/-- A payload of the variant's size carries the message that is read from it (R94 to R99). -/
theorem carries_iff : Carries p op size m ↔ messageSize op = some size ∧ readMessage op size p = some m := by
  constructor
  · intro h
    cases h <;> exact ⟨rfl, rfl⟩
  · rintro ⟨hsize, hread⟩
    rcases messageSize_cases op with ⟨-, hn⟩ | ⟨rfl | rfl | rfl | rfl, -⟩ | ⟨rfl | rfl, -⟩
    · simp [hn] at hsize
    all_goals cases hsize; cases hread; constructor

/-- `DEC` answers a message exactly when the payload carries it, under the opcode of the identifier and at its length. -/
theorem decodeFrame_eq_message_iff {id : Ident} {len : Len} :
    decodeFrame id len p = .ok (some m) ↔ Carries p (splitOpcode id) len.toNat m := by
  rw [carries_iff]
  constructor
  · intro h
    rcases decodeFrame_cases id len p with ⟨-, he⟩ | ⟨_, -, -, he⟩ | ⟨m', hsize, hread, he⟩
    · simp [he] at h
    · simp [he] at h
    · obtain rfl : m' = m := by simpa [he] using h
      exact ⟨hsize, hread⟩
  · rintro ⟨hsize, hread⟩
    simp [decodeFrame, hsize, hread]

/-- Four bytes that put together make the value are those of a SetParameter of that value. -/
theorem Carries.setParameter_of_eq {value : Word32} (h : (p.b4 ++ p.b3 ++ p.b2 ++ p.b1 : Word32) = value) :
    Carries p 4 5 (.setParameter p.b0 value) :=
  h ▸ .setParameter

/-- The payload that `ENC` writes carries the message. -/
theorem carries_frameOf (node : NodeId) :
    ∀ m : Message, Carries (frameOf node m).data (bundleOf m).tag (frameOf node m).len.toNat m
  | .halt _ => .halt
  | .heartbeat _ => .heartbeat
  | .ioState _ => .ioState
  | .setIoState _ => .setIoState
  | .setParameter _ value => .setParameter_of_eq (word32_of_slices value)
  | .getParameter _ => .getParameter

/-- The opcode and the size under which a message is carried are those that `ENC` writes. -/
theorem Carries.tag_len (h : Carries p op size m) (node : NodeId) :
    op = (bundleOf m).tag ∧ size = (frameOf node m).len.toNat := by
  cases h <;> exact ⟨rfl, rfl⟩

/-- A payload that carries a message holds the bytes that `ENC` writes for it. -/
theorem Carries.byte_eq (h : Carries p op size m) (node : NodeId) {k : Nat} (hk : k < size) :
    Payload.byte (frameOf node m).data k = Payload.byte p k := by
  cases h with
  | halt | ioState | setIoState | getParameter =>
    obtain rfl : k = 0 := by omega
    rfl
  | heartbeat =>
    have hcases : k = 0 ∨ k = 1 ∨ k = 2 ∨ k = 3 ∨ k = 4 := by omega
    rcases hcases with rfl | rfl | rfl | rfl | rfl <;> rfl
  | setParameter =>
    obtain ⟨h1, h2, h3, h4⟩ := slices_of_bytes p.b1 p.b2 p.b3 p.b4
    have hcases : k = 0 ∨ k = 1 ∨ k = 2 ∨ k = 3 ∨ k = 4 := by omega
    rcases hcases with rfl | rfl | rfl | rfl | rfl
    exacts [rfl, h1, h2, h3, h4]

end Carries

/-! ## `DEC` after `ENC`, and `ENC` after `DEC` -/

/-- `DEC` answers the message it decodes, and no other (R90). -/
theorem answers_dec_message_iff {id : Ident} {len : Len} {p : Payload} {m : Message} :
    answers (.dec id len p) (.message m) ↔ decodeFrame id len p = .ok (some m) := by
  constructor
  · intro h
    rcases reportDecoded_next (h State.reset) with ⟨st, -, ht⟩ | ⟨m', hd, ht⟩
    · cases congrArg (·.out.result) ht
    · cases congrArg (·.out.result) ht
      exact hd
  · intro hd s
    simp [exec, execDec, hd, reportDecoded, answer]

/-- `DEC(ENC(node, m)) = (OK, m)` (R88). -/
theorem answers_dec_frameOf (node : NodeId) (m : Message) :
    answers (.dec (frameOf node m).id (frameOf node m).len (frameOf node m).data) (.message m) := by
  rw [answers_dec_message_iff, decodeFrame_eq_message_iff, frameOf_id, splitOpcode_genId]
  exact carries_frameOf node m

/-- `ENC` of a decoded message, for the node of the identifier, writes the identifier, the length and the bytes below it
(R88). -/
theorem frameOf_of_answers_dec {id : Ident} {len : Len} {p : Payload} {m : Message}
    (h : answers (.dec id len p) (.message m)) :
    (frameOf (splitNode id) m).id = id ∧ (frameOf (splitNode id) m).len = len ∧
      ∀ k, k < len.toNat → Payload.byte (frameOf (splitNode id) m).data k = Payload.byte p k := by
  have hc := decodeFrame_eq_message_iff.mp (answers_dec_message_iff.mp h)
  obtain ⟨htag, hlen⟩ := hc.tag_len (splitNode id)
  exact ⟨by rw [frameOf_id, ← htag, genId_split], (BitVec.eq_of_toNat_eq hlen).symm, fun _ => hc.byte_eq _⟩

/-! ## The statements -/

/-- Settles O29: one frame, `frameOf`, is what `ENC` answers in both directions. -/
theorem framerRoundTrip : Obligations.FramerRoundTrip := by
  refine ⟨fun node m => ?_, fun id len p m h => ?_⟩
  · have hid : (frameOf node m).id.toNat = 32 * node.toNat + (bundleOf m).tag.toNat := by
      rw [frameOf_id, genId_toNat]
    exact ⟨frameOf node m, answers_enc node (messageOf_bundleOf m), hid, frameOf_len node m, frameOf_rtr node m,
      answers_dec_frameOf node m⟩
  · exact ⟨splitNode id, frameOf (splitNode id) m, splitNode_toNat id, answers_enc _ (messageOf_bundleOf m),
      frameOf_of_answers_dec h⟩

/-- Settles O21: the message that the lanes valid for the tag make up, and the format of its frame. -/
theorem encSelectsTheVariantByTag : Obligations.EncSelectsTheVariantByTag := fun node b =>
  ⟨fun h => sendsFrame_frameF1 0 (answers_enc (m := .halt b.ioState) node (messageOf_of_tag h)),
    fun h => sendsFrame_frameF5H
      (answers_enc (m := .heartbeat ⟨b.deviceType, b.ioDir, b.ioState, b.errors, b.counter⟩) node (messageOf_of_tag h)),
    fun h => sendsFrame_frameF1 2 (answers_enc (m := .ioState b.ioState) node (messageOf_of_tag h)),
    fun h => sendsFrame_frameF1 3 (answers_enc (m := .setIoState b.ioState) node (messageOf_of_tag h)),
    fun h => sendsFrame_frameF5P (answers_enc (m := .setParameter b.paramId b.value) node (messageOf_of_tag h)),
    fun h => sendsFrame_frameF1 5 (answers_enc (m := .getParameter b.paramId) node (messageOf_of_tag h)),
    fun h => answers_enc_of_no_message node (messageOf_eq_none h)⟩

/-- Settles O18: four rows of format `F1`. -/
theorem encOneByteRows : Obligations.EncOneByteRows := fun _ _ =>
  ⟨sendsFrame_frameF1 0 fun _ => rfl, sendsFrame_frameF1 2 fun _ => rfl, sendsFrame_frameF1 3 fun _ => rfl,
    sendsFrame_frameF1 5 fun _ => rfl⟩

/-- Settles O19: the row of format `F5H`. -/
theorem encHeartbeatRow : Obligations.EncHeartbeatRow := fun _ dt dir io err cnt =>
  sendsFrame_frameF5H (hb := ⟨dt, dir, io, err, cnt⟩) fun _ => rfl

/-- Settles O20: the row of format `F5P`. -/
theorem encSetparamRow : Obligations.EncSetparamRow := fun _ _ _ => sendsFrame_frameF5P fun _ => rfl

end Sys2Proof.Machine
end

section
/-! SUPPORT. The rules the receive statements of 42_decode.md turn on: each row of the receive direction is `DEC` of an
identifier with the row's opcode, and what `DEC` answers at each of its checks. -/

namespace Sys2Proof.Machine

/-! ## The size an opcode selects -/

/-- The Heartbeat and the SetParameter take five bytes, the other variants one (R56). -/
theorem messageSize_of_le {op : Opcode} (h : op.toNat ≤ 5) :
    messageSize op = some (if op.toNat = 1 ∨ op.toNat = 4 then 5 else 1) := by
  rcases messageSize_cases op with ⟨hop, -⟩ | ⟨rfl | rfl | rfl | rfl, -⟩ | ⟨rfl | rfl, -⟩
  · omega
  all_goals rfl

theorem messageSize_eq_none {op : Opcode} (h : 5 < op.toNat) : messageSize op = none := by
  rcases messageSize_cases op with ⟨-, hn⟩ | ⟨rfl | rfl | rfl | rfl, -⟩ | ⟨rfl | rfl, -⟩
  · exact hn
  all_goals exact absurd h (by decide)

/-! ## The operations that are a `DEC` -/

/-- From every state, the operation does what `DEC` does on some identifier with this opcode. -/
def IsDec (i : Instr) (op : Opcode) (len : Len) (p : Payload) : Prop :=
  ∃ id, splitOpcode id = op ∧ ∀ s, exec i s = exec (.dec id len p) s

section Rows

variable (node : NodeId) (len : Len) (p : Payload)

theorem isDec_dec {id : Ident} {op : Opcode} (h : splitOpcode id = op) : IsDec (.dec id len p) op len p :=
  ⟨id, h, fun _ => rfl⟩

/-- A row decodes the identifier of its node and opcode. -/
theorem isDec_of_genId {i : Instr} {op : Opcode} (h : ∀ s, exec i s = exec (.dec (genId node op) len p) s) :
    IsDec i op len p :=
  ⟨genId node op, splitOpcode_genId node op, h⟩

theorem isDec_decHalt : IsDec (.decHalt node len p) 0 len p := isDec_of_genId node len p fun _ => rfl

theorem isDec_decHeartbeat : IsDec (.decHeartbeat node len p) 1 len p := isDec_of_genId node len p fun _ => rfl

theorem isDec_decIostate : IsDec (.decIostate node len p) 2 len p := isDec_of_genId node len p fun _ => rfl

theorem isDec_decSetiostate : IsDec (.decSetiostate node len p) 3 len p := isDec_of_genId node len p fun _ => rfl

theorem isDec_decSetparam : IsDec (.decSetparam node len p) 4 len p := isDec_of_genId node len p fun _ => rfl

theorem isDec_decGetparam : IsDec (.decGetparam node len p) 5 len p := isDec_of_genId node len p fun _ => rfl

theorem isDec_unassigned6to7 (x : BitVec 1) : IsDec (.unassigned6to7 node x len p) (0b0011#4 ++ x) len p :=
  isDec_of_genId node len p fun _ => rfl

theorem isDec_unassigned8to15 (x : BitVec 3) : IsDec (.unassigned8to15 node x len p) (0b01#2 ++ x) len p :=
  isDec_of_genId node len p fun _ => rfl

theorem isDec_unassigned16to31 (x : BitVec 4) : IsDec (.unassigned16to31 node x len p) (0b1#1 ++ x) len p :=
  isDec_of_genId node len p fun _ => rfl

end Rows

/-- The opcodes of the three unassigned rows are above 5, whatever the bits a row leaves free (R54). -/
theorem unassigned6to7_opcode_gt : ∀ x : BitVec 1, 5 < (0b0011#4 ++ x : Opcode).toNat := by decide

theorem unassigned8to15_opcode_gt : ∀ x : BitVec 3, 5 < (0b01#2 ++ x : Opcode).toNat := by decide

theorem unassigned16to31_opcode_gt : ∀ x : BitVec 4, 5 < (0b1#1 ++ x : Opcode).toNat := by decide

/-! ## What a `DEC` answers at each of its checks -/

section Answers

variable {i : Instr} {op : Opcode} {len : Len} {p : Payload}

/-- First check: no variant has this opcode (R92). -/
theorem IsDec.answers_unknownOpcode (hd : IsDec i op len p) (hop : 5 < op.toNat) :
    answers i (.status .unknownOpcode) := by
  obtain ⟨id, rfl, hexec⟩ := hd
  intro s
  rw [hexec]
  simp [exec, execDec, decodeFrame, messageSize_eq_none hop, reportDecoded, raiseError, answer]

/-- Second check: the length is not the size of the variant (R93). -/
theorem IsDec.answers_lengthMismatch {size : Nat} (hd : IsDec i op len p) (hsize : messageSize op = some size)
    (hlen : len.toNat ≠ size) : answers i (.status .lengthMismatch) := by
  obtain ⟨id, rfl, hexec⟩ := hd
  intro s
  rw [hexec]
  simp [exec, execDec, decodeFrame, hsize, hlen, reportDecoded, raiseError, answer]

/-- Both checks passed: the message that the payload carries (R94 to R99). -/
theorem IsDec.answers_message {size : Len} {m : Message} (hd : IsDec i op len p) (hc : Carries p op size.toNat m)
    (hlen : len = size) : answers i (.message m) := by
  obtain ⟨id, rfl, hexec⟩ := hd
  subst hlen
  intro s
  rw [hexec]
  exact answers_dec_message_iff.mpr (decodeFrame_eq_message_iff.mpr hc) s

/-- The second check of a variant whose size is known by what it carries. -/
theorem IsDec.answers_lengthMismatch_of_carries {size : Len} {m : Message} (hd : IsDec i op len p)
    (hc : Carries p op size.toNat m) (hlen : len ≠ size) : answers i (.status .lengthMismatch) :=
  hd.answers_lengthMismatch (carries_iff.mp hc).1 fun h => hlen (BitVec.eq_of_toNat_eq h)

end Answers

/-- Two's complement: a pattern with bit 31 set stands for itself less `2 ^ 32` (log 12). -/
theorem word32_toInt (v : Word32) :
    v.toInt = if v.getLsbD 31 then (v.toNat : Int) - 2 ^ 32 else (v.toNat : Int) := by
  rw [BitVec.toInt_eq_msb_cond, BitVec.msb_eq_getLsbD_last]
  rfl

/-! ## The statements -/

/-- Settles O26: each of these operations is a `DEC` that fails the first check. -/
theorem unassignedOpcodesAreUnknown : Obligations.UnassignedOpcodesAreUnknown :=
  ⟨fun node len p =>
    ⟨fun x => (isDec_unassigned6to7 node len p x).answers_unknownOpcode (unassigned6to7_opcode_gt x),
      fun x => (isDec_unassigned8to15 node len p x).answers_unknownOpcode (unassigned8to15_opcode_gt x),
      fun x => (isDec_unassigned16to31 node len p x).answers_unknownOpcode (unassigned16to31_opcode_gt x)⟩,
    fun id len p h => (isDec_dec len p rfl).answers_unknownOpcode (by rwa [splitOpcode_toNat])⟩

/-- Settles O27: the two checks by the remainder by 32, then the variant that each remainder selects. -/
theorem decIsTotalAndOrdered : Obligations.DecIsTotalAndOrdered := by
  intro id len p
  have hdec : IsDec (.dec id len p) (splitOpcode id) len p := isDec_dec len p rfl
  have hselects {op : Opcode} (h : (splitOpcode id).toNat = op.toNat) : IsDec (.dec id len p) op len p :=
    isDec_dec len p (BitVec.eq_of_toNat_eq h)
  rw [← splitOpcode_toNat]
  exact ⟨hdec.answers_unknownOpcode, fun hop => hdec.answers_lengthMismatch (messageSize_of_le hop),
    fun h => (hselects (op := 0) h).answers_message .halt,
    fun h => (hselects (op := 1) h).answers_message .heartbeat,
    fun h => (hselects (op := 2) h).answers_message .ioState,
    fun h => (hselects (op := 3) h).answers_message .setIoState,
    fun h => (hselects (op := 4) h).answers_message .setParameter,
    fun h => (hselects (op := 5) h).answers_message .getParameter⟩

/-- Settles O23: four rows whose variant carries one byte. -/
theorem decOneByteRows : Obligations.DecOneByteRows := fun node len p =>
  ⟨fun h => ⟨(isDec_decHalt node len p).answers_message .halt h, (isDec_decIostate node len p).answers_message .ioState h,
      (isDec_decSetiostate node len p).answers_message .setIoState h,
      (isDec_decGetparam node len p).answers_message .getParameter h⟩,
    fun h => ⟨(isDec_decHalt node len p).answers_lengthMismatch_of_carries .halt h,
      (isDec_decIostate node len p).answers_lengthMismatch_of_carries .ioState h,
      (isDec_decSetiostate node len p).answers_lengthMismatch_of_carries .setIoState h,
      (isDec_decGetparam node len p).answers_lengthMismatch_of_carries .getParameter h⟩⟩

/-- Settles O24: the row whose variant carries the five fields of a Heartbeat. -/
theorem decHeartbeatRow : Obligations.DecHeartbeatRow := fun node len p =>
  ⟨(isDec_decHeartbeat node len p).answers_message .heartbeat,
    (isDec_decHeartbeat node len p).answers_lengthMismatch_of_carries .heartbeat⟩

/-- Settles O25: the value is the four bytes put together, and its reading as a number is that of `BitVec.toInt`. -/
theorem decSetparamRow : Obligations.DecSetparamRow := fun node len p =>
  ⟨fun h => ⟨_, (isDec_decSetparam node len p).answers_message .setParameter h,
      word32_of_bytes_toNat p.b1 p.b2 p.b3 p.b4, word32_toInt _⟩,
    (isDec_decSetparam node len p).answers_lengthMismatch_of_carries .setParameter⟩

end Sys2Proof.Machine
end

section
/-! SUPPORT. The rules the intake statements of 43_intake_dispatch.md turn on: what `RX` does at each of its checks, in
their order, and what the dispatch of a report does to the registers and to the cells. -/

namespace Sys2Proof.Machine

/-! ## What the decoder answers at each of its checks -/

/-- First check: no variant has this opcode (R92). -/
theorem decodeFrame_of_unknownOpcode {id : Ident} (h : 5 < id.toNat % 32) (len : Len) (p : Payload) :
    decodeFrame id len p = .error .unknownOpcode := by
  simp [decodeFrame, messageSize_eq_none (splitOpcode_toNat id ▸ h)]

/-- Second check: the length is not that of the variant (R93). -/
theorem decodeFrame_of_lengthMismatch {id : Ident} {len : Len} (hop : id.toNat % 32 ≤ 5)
    (hlen : len.toNat ≠ if id.toNat % 32 = 1 ∨ id.toNat % 32 = 4 then 5 else 1) (p : Payload) :
    decodeFrame id len p = .error .lengthMismatch := by
  rw [← splitOpcode_toNat] at hop hlen
  simp only [decodeFrame, messageSize_of_le hop, if_pos hlen]

/-- An error of the decoder is that of one of its two checks (R91). -/
theorem decodeFrame_error {id : Ident} {len : Len} {p : Payload} {st : Status} (h : decodeFrame id len p = .error st) :
    st = .unknownOpcode ∨ st = .lengthMismatch := by
  rcases decodeFrame_cases id len p with ⟨-, he⟩ | ⟨_, -, -, he⟩ | ⟨m, -, -, he⟩ <;> cases h.symm.trans he
  · exact .inl rfl
  · exact .inr rfl

/-! ## What `RX` does at each of its checks -/

section Rx

variable {s : State} {id : Ident} {rtr : Bool} {len : Len} {p : Payload} {now : Nat}

/-- First check: the node filter (R101). -/
theorem exec_rx_of_other_node (ha : s.admits now) (hnode : id.toNat / 32 ≠ s.cfg.nodeId.toNat) :
    exec (.rx id rtr len p now) s = .next (raiseError { s with lastNow := some now } .dropNode) := by
  simp [exec, execRx, withTime_of_admits ha, splitNode_eq_iff, hnode]

/-- Second check: the remote-request drop (R102). -/
theorem exec_rx_of_remote_request (ha : s.admits now) (hnode : id.toNat / 32 = s.cfg.nodeId.toNat) :
    exec (.rx id true len p now) s = .next (raiseError { s with lastNow := some now } .dropRtr) := by
  simp [exec, execRx, withTime_of_admits ha, splitNode_eq_iff, hnode]

/-- Third check: the error of the decoder (R104). -/
theorem exec_rx_of_decode_error {st : Status} (ha : s.admits now) (hnode : id.toNat / 32 = s.cfg.nodeId.toNat)
    (hd : decodeFrame id len p = .error st) :
    exec (.rx id false len p now) s = .next (raiseError { s with lastNow := some now } st) := by
  simp [exec, execRx, withTime_of_admits ha, splitNode_eq_iff, hnode, hd]

/-- All checks passed: the message is dispatched (R105). -/
theorem exec_rx_of_message {m : Message} (ha : s.admits now) (hnode : id.toNat / 32 = s.cfg.nodeId.toNat)
    (hd : decodeFrame id len p = .ok (some m)) :
    exec (.rx id false len p now) s = .next (dispatch m now { s with lastNow := some now }) := by
  simp [exec, execRx, withTime_of_admits ha, splitNode_eq_iff, hnode, hd]

/-- A frame whose payload carries a message, under the opcode of the identifier and at the message's length. -/
theorem exec_rx_of_carries {op : Opcode} {m : Message} (hc : Carries p op len.toNat m) (ha : s.admits now)
    (hnode : id.toNat / 32 = s.cfg.nodeId.toNat) (hop : id.toNat % 32 = op.toNat) :
    exec (.rx id false len p now) s = .next (dispatch m now { s with lastNow := some now }) := by
  obtain rfl : splitOpcode id = op := BitVec.eq_of_toNat_eq ((splitOpcode_toNat id).trans hop)
  exact exec_rx_of_message ha hnode (decodeFrame_eq_message_iff.mpr hc)

/-- Everything `RX` can do with a `now` that may be issued, by the first check that stops the frame (R101 to R105). -/
theorem exec_rx_cases (id : Ident) (rtr : Bool) (len : Len) (p : Payload) (ha : s.admits now) :
    (id.toNat / 32 ≠ s.cfg.nodeId.toNat ∧
      exec (.rx id rtr len p now) s = .next (raiseError { s with lastNow := some now } .dropNode)) ∨
    (id.toNat / 32 = s.cfg.nodeId.toNat ∧ ∃ st, (st = .dropRtr ∨ st = .unknownOpcode ∨ st = .lengthMismatch) ∧
      exec (.rx id rtr len p now) s = .next (raiseError { s with lastNow := some now } st)) ∨
    (id.toNat / 32 = s.cfg.nodeId.toNat ∧ ∃ m,
      exec (.rx id rtr len p now) s = .next (dispatch m now { s with lastNow := some now })) := by
  by_cases hnode : id.toNat / 32 = s.cfg.nodeId.toNat
  · refine .inr ?_
    cases rtr with
    | true => exact .inl ⟨hnode, .dropRtr, .inl rfl, exec_rx_of_remote_request ha hnode⟩
    | false =>
      match hd : decodeFrame id len p with
      | .error st => exact .inl ⟨hnode, st, .inr (decodeFrame_error hd), exec_rx_of_decode_error ha hnode hd⟩
      | .ok none => exact absurd hd (decodeFrame_ne_none id len p)
      | .ok (some m) => exact .inr ⟨hnode, m, exec_rx_of_message ha hnode hd⟩
  · exact .inl ⟨hnode, exec_rx_of_other_node ha hnode⟩

end Rx

/-! ## What the dispatch does -/

/-- The result of the dispatch is the message, whatever its variant (R106 to R108). -/
@[simp] theorem dispatch_result (m : Message) (now : Nat) (s : State) : (dispatch m now s).out.result = .message m := by
  cases m <;> rfl

/-- A raise keeps the count and sets the flag if somebody waits (R124). -/
theorem cell_raise_eq (c : Cell) : c.raise = ⟨c.flag || decide (0 < c.waiters), c.waiters⟩ := by
  rw [← cell_raise_flag, ← cell_raise_waiters]

/-- An `RX` that answers an IoState updates the pins to its byte, and its pulses are the edges from the levels before
(R107). -/
theorem execRx_ioState {id : Ident} {rtr : Bool} {len : Len} {data : Payload} {now : Nat} {s t : State} {v : Byte}
    (h : execRx id rtr len data now s = .next t) (hr : t.out.result = .message (.ioState v)) :
    t.block.ioState = v ∧ t.block.prevState = s.block.ioState ∧ t.out.events = edgeEvents s.block.ioState v := by
  obtain ⟨-, -, -, -, -, -, ⟨-, -, hno⟩ | ⟨hb, hr', -⟩ | ⟨v', hr', -, hio, hprev, hev⟩⟩ := execRx_report h
  · exact absurd hr (hno v)
  · simp [hr] at hr'
  · obtain rfl : v = v' := by simpa using hr.symm.trans hr'
    exact ⟨hio, hprev, hev⟩

/-- An `RX` that pulses answers a report: a Heartbeat or an IoState (R109). -/
theorem execRx_report_of_pulse {id : Ident} {rtr : Bool} {len : Len} {data : Payload} {now : Nat} {s t : State}
    (h : execRx id rtr len data now s = .next t) (hev : t.out.events ≠ Events.none) :
    (∃ hb, t.out.result = .message (.heartbeat hb)) ∨ (∃ v, t.out.result = .message (.ioState v)) := by
  obtain ⟨-, -, -, -, -, -, ⟨ht, -⟩ | ⟨hb, hr, -⟩ | ⟨v, hr, -⟩⟩ := execRx_report h
  · exact absurd (congrArg (·.out.events) ht) hev
  · exact .inl ⟨hb, hr⟩
  · exact .inr ⟨v, hr⟩

/-! ## The statements -/

/-- Settles O33: the two errors of the decoder are those of its two checks. -/
theorem rxDropsFramesThatDoNotDecode : Obligations.RxDropsFramesThatDoNotDecode := fun _ _ len p _ ha hnode =>
  ⟨fun hop => exec_rx_of_decode_error ha hnode (decodeFrame_of_unknownOpcode hop len p),
    fun hop hlen => exec_rx_of_decode_error ha hnode (decodeFrame_of_lengthMismatch hop hlen p)⟩

/-- Settles O34: the registers by evaluation of the dispatch, the cells by the raises of a Heartbeat's pulses. -/
theorem rxDispatchesAHeartbeat : Obligations.RxDispatchesAHeartbeat := by
  intro s id p now ha hnode hop
  refine ⟨_, exec_rx_of_carries .heartbeat ha hnode hop, rfl, rfl, rfl, rfl, rfl, rfl, rfl, fun c => ?_, rfl, rfl⟩
  rw [← cell_raise_eq]
  exact recordHeartbeat_cell _ _ _ c

/-- Settles O35: the registers by evaluation of the dispatch, the cells by the raises of the pin update's pulses. -/
theorem rxDispatchesAnIoState : Obligations.RxDispatchesAnIoState := by
  intro s id p now ha hnode hop
  refine ⟨_, exec_rx_of_carries .ioState ha hnode hop, rfl, rfl, rfl, rfl, rfl, rfl, rfl, fun c => ?_, rfl, rfl⟩
  rw [← cell_raise_eq]
  exact pinUpdate_cell _ _ c

/-- Settles O36: the dispatch of each of the four variants is an answer, by evaluation. -/
theorem rxOtherVariantsChangeNothing : Obligations.RxOtherVariantsChangeNothing := fun _ _ _ _ ha hnode =>
  ⟨fun hop => (exec_rx_of_carries (len := 1) .halt ha hnode hop).trans rfl,
    fun hop => (exec_rx_of_carries (len := 1) .setIoState ha hnode hop).trans rfl,
    fun hop => (exec_rx_of_carries (len := 5) .setParameter ha hnode hop).trans rfl,
    fun hop => (exec_rx_of_carries (len := 1) .getParameter ha hnode hop).trans rfl⟩

/-- Settles O38: the result by the check that stops the frame, the pulses by the report. -/
theorem rxPulsesOnlyForReports : Obligations.RxPulsesOnlyForReports := by
  intro s t id rtr len p now h
  refine ⟨?_, execRx_report_of_pulse h⟩
  obtain ⟨ha, -⟩ := execRx_next h
  rcases exec_rx_cases id rtr len p ha with ⟨-, he⟩ | ⟨-, st, hst, he⟩ | ⟨-, m, he⟩ <;> cases h.symm.trans he
  · exact .inr (.inl rfl)
  · rcases hst with rfl | rfl | rfl <;> simp
  · exact .inl ⟨m, dispatch_result _ _ _⟩

/-- Settles O41: each frame updates the pins from the levels it finds, and the second finds those of the first. -/
theorem reportsAreNeverMerged : Obligations.ReportsAreNeverMerged := by
  intro s t u id id' p q now now' v w ht hv hu hw
  obtain ⟨hio, hprev, hev⟩ := execRx_ioState ht hv
  obtain ⟨hio', hprev', hev'⟩ := execRx_ioState hu hw
  rw [hio] at hprev' hev'
  exact ⟨hio, hprev, hev, hio', hprev', hev'⟩

/-- Settles O31: the node filter is the first check, and no later one answers `DROP_NODE`. -/
theorem rxDropsFramesOfOtherNodes : Obligations.RxDropsFramesOfOtherNodes := by
  intro s id rtr len p now ha
  refine ⟨exec_rx_of_other_node ha, fun hnode t h => ?_⟩
  rcases exec_rx_cases id rtr len p ha with ⟨hne, -⟩ | ⟨-, st, hst, he⟩ | ⟨-, m, he⟩
  · exact absurd hnode hne
  · cases h.symm.trans he
    rcases hst with rfl | rfl | rfl <;> simp
  · cases h.symm.trans he
    simp

/-- Settles O32. -/
theorem rxDropsRemoteRequests : Obligations.RxDropsRemoteRequests := fun _ _ _ _ _ => exec_rx_of_remote_request

end Sys2Proof.Machine
end

section
/-! SUPPORT. The rules the signal statements of 44_pin_signals.md turn on: what each `WAIT.*` does to its cell, what a
report does to one pin, and which operation pulses. -/

namespace Sys2Proof.Machine

/-! ## One cell -/

section Cell

variable {c : Cell} {waiterW : Option Nat}

/-- A counter is not full while it is below the greatest value of its width (R134). -/
theorem cell_full_eq_false_iff : c.full waiterW = false ↔ ∀ w, waiterW = some w → c.waiters < 2 ^ w - 1 := by
  cases waiterW with
  | none => simp [Cell.full]
  | some w => simp only [Cell.full, decide_eq_false_iff_not, not_le, Option.some.injEq, forall_eq']

theorem cell_full_of_greatest (h : ∃ w, waiterW = some w ∧ c.waiters = 2 ^ w - 1) : c.full waiterW = true := by
  obtain ⟨w, rfl, hw⟩ := h
  simp [Cell.full, hw]

/-- A waiter that leaves is the last one exactly when it was the only one (R126, R127). -/
theorem cell_leave_eq (h : 0 < c.waiters) :
    c.leave = if c.waiters = 1 then ⟨false, 0⟩ else ⟨c.flag, c.waiters - 1⟩ := by
  have hlast : c.waiters - 1 = 0 ↔ c.waiters = 1 := by omega
  simp only [Cell.leave, hlast]

end Cell

/-! ## What `WAIT.*` does -/

section Wait

variable {s : State} {sig : SigNum} {c : Signal}

theorem onSignal_of_signalOf (hc : signalOf sig = some c) (k : Signal → Host.Outcome State Fault Refusal) :
    onSignal sig k = k c := by
  simp [onSignal, hc]

/-- A reserved number names no cell, whatever the operation (R63). -/
theorem onSignal_of_reserved (h : 24 < sig.toNat) (k : Signal → Host.Outcome State Fault Refusal) :
    onSignal sig k = .refused .reservedSignal := by
  simp [onSignal, signalOf_eq_none h]

theorem exec_waitEnter_of_full (hc : signalOf sig = some c) (hfull : (s.block.cells.get c).full s.cfg.waiterW = true) :
    exec (.waitEnter sig) s = .refused .counterFull :=
  (onSignal_of_signalOf hc _).trans (if_pos hfull)

theorem exec_waitEnter_of_room (hc : signalOf sig = some c) (hroom : (s.block.cells.get c).full s.cfg.waiterW = false) :
    exec (.waitEnter sig) s = .next (answer (setCell s c (s.block.cells.get c).enter) .none) :=
  (onSignal_of_signalOf hc _).trans (if_neg (by simp [hroom]))

theorem exec_waitObserve_of_no_waiter (hc : signalOf sig = some c) (hw : (s.block.cells.get c).waiters = 0) :
    exec (.waitObserve sig) s = .refused .noWaiter :=
  (onSignal_of_signalOf hc _).trans (if_pos hw)

/-- The polling form of a held wait (R126; log 10). -/
theorem exec_waitObserve_of_clear (hc : signalOf sig = some c) (hw : 0 < (s.block.cells.get c).waiters)
    (hflag : (s.block.cells.get c).flag = false) :
    exec (.waitObserve sig) s = .next (raiseError s .pending) :=
  (onSignal_of_signalOf hc _).trans ((if_neg hw.ne').trans (if_neg (by simp [hflag])))

theorem exec_waitObserve_of_set (hc : signalOf sig = some c) (hw : 0 < (s.block.cells.get c).waiters)
    (hflag : (s.block.cells.get c).flag = true) :
    exec (.waitObserve sig) s = .next (answer (setCell s c (s.block.cells.get c).leave) (.status .ok)) :=
  (onSignal_of_signalOf hc _).trans ((if_neg hw.ne').trans (if_pos hflag))

theorem exec_waitAbandon_of_no_waiter (hc : signalOf sig = some c) (hw : (s.block.cells.get c).waiters = 0) :
    exec (.waitAbandon sig) s = .refused .noWaiter :=
  (onSignal_of_signalOf hc _).trans (if_pos hw)

theorem exec_waitAbandon_of_waiter (hc : signalOf sig = some c) (hw : 0 < (s.block.cells.get c).waiters) :
    exec (.waitAbandon sig) s = .next (answer (setCell s c (s.block.cells.get c).leave) .none) :=
  (onSignal_of_signalOf hc _).trans (if_neg hw.ne')

/-- An answer with one cell replaced leaves every other cell and register as it was. -/
theorem sameBut_answer_setCell (s : State) (c : Signal) (v : Cell) (r : Result) :
    s.sameBut (answer (setCell s c v) r) c where
  cfg := rfl
  lastNow := rfl
  cancelledWaits := rfl
  pending := rfl
  ioState := rfl
  prevState := rfl
  lastHb := rfl
  others _ hd := bank_get_set_of_ne _ _ hd

/-- A `WAIT.ENTER` that answers has entered the cell its operand names (R125). -/
theorem exec_waitEnter_cell {t : State} (h : exec (.waitEnter sig) s = .next t) (hc : signalOf sig = some c) :
    t.block.cells.get c = (s.block.cells.get c).enter := by
  obtain ⟨c', hc', -, rfl⟩ := execWaitEnter_next h
  obtain rfl : c = c' := by simpa using hc.symm.trans hc'
  simp

end Wait

/-! ## When a set flag is cleared -/

/-- A set flag stays set, unless its last waiter leaves (R128 (b), (c)). -/
theorem CellStep.flag_stays {i : Instr} {w : Option Nat} {c : Signal} {old new : Cell} (h : CellStep i w c old new)
    (hold : old.flag = true) (hi : i ≠ .reset) :
    new.flag = true ∨ (old.waiters ≤ 1 ∧ new.waiters = 0 ∧
      ∃ sig, signalOf sig = some c ∧ (i = .waitObserve sig ∨ i = .waitAbandon sig)) := by
  cases h with
  | kept => exact .inl hold
  | raised => exact .inl (by simp [cell_raise_flag, hold])
  | cleared hreset => exact absurd hreset hi
  | entered => exact .inl hold
  | left sig hop hsig =>
    by_cases hmore : 1 < old.waiters
    · exact .inl (by simp [cell_leave_flag, hold, hmore])
    · exact .inr ⟨by omega, by rw [cell_leave_waiters]; omega, sig, hsig, hop⟩

/-! ## What a report does to one pin -/

/-- A pin changed exactly when it rose or fell (R121). -/
theorem changedPins_eq_risen_or_fallen (old new : Byte) :
    changedPins old new = risenPins old new ||| fallenPins old new := by
  ext k hk
  simp only [changedPins, risenPins, fallenPins, BitVec.getElem_xor, BitVec.getElem_or, BitVec.getElem_and,
    BitVec.getElem_not]
  cases old[k] <;> cases new[k] <;> rfl

/-- No pin rises and falls in one update (R121). -/
theorem risenPins_and_fallenPins (old new : Byte) : risenPins old new &&& fallenPins old new = 0 := by
  ext k hk
  simp only [risenPins, fallenPins, BitVec.getElem_and, BitVec.getElem_not]
  cases old[k] <;> cases new[k] <;> simp

/-- An `RX` that answers a report updates the pins to its byte, and its pulses are the edges from the levels before,
with `alive` beside them for a Heartbeat (R106, R107). -/
theorem execRx_pins {id : Ident} {rtr : Bool} {len : Len} {data : Payload} {now : Nat} {s t : State} {new : Byte}
    (h : execRx id rtr len data now s = .next t)
    (hr : (∃ hb, t.out.result = .message (.heartbeat hb) ∧ hb.ioState = new) ∨
      t.out.result = .message (.ioState new)) :
    t.block.ioState = new ∧ ∃ alive, t.out.events = { edgeEvents s.block.ioState new with alive := alive } := by
  rcases hr with ⟨hb, hr, rfl⟩ | hr
  · obtain ⟨-, -, -, -, -, -, ⟨-, hno, -⟩ | ⟨hb', hr', -, hio, -, hev⟩ | ⟨v, hr', -⟩⟩ := execRx_report h
    · exact absurd hr (hno hb)
    · obtain rfl : hb = hb' := by simpa using hr.symm.trans hr'
      exact ⟨hio, true, hev⟩
    · simp [hr] at hr'
  · obtain ⟨hio, -, hev⟩ := execRx_ioState h hr
    exact ⟨hio, false, hev⟩

/-- The pulses of one pin, by its level before and after. -/
theorem edgeEvents_names (old new : Byte) (alive : Bool) (n : Fin 8) :
    ({ edgeEvents old new with alive := alive } : Events).names (.change n) = (old.getLsbD n ^^ new.getLsbD n) ∧
    ({ edgeEvents old new with alive := alive } : Events).names (.rise n) = (!old.getLsbD n && new.getLsbD n) ∧
    ({ edgeEvents old new with alive := alive } : Events).names (.fall n) = (old.getLsbD n && !new.getLsbD n) :=
  ⟨changed_bit old new n, risen_bit old new n, fallen_bit old new n⟩

/-! ## Which operation pulses -/

/-- The cells that the pulses of an `RX` name are raised, and the others stay (R123, R124). -/
theorem execRx_cell {id : Ident} {rtr : Bool} {len : Len} {data : Payload} {now : Nat} {s t : State}
    (h : execRx id rtr len data now s = .next t) (c : Signal) :
    t.block.cells.get c = if t.out.events.names c then (s.block.cells.get c).raise else s.block.cells.get c := by
  obtain ⟨-, -, -, -, -, hcells, -⟩ := execRx_report h
  exact hcells c

/-- Only `RX` pulses (R123). -/
theorem exec_events_none {i : Instr} {s t : State} (h : exec i s = .next t) (hi : opClass i ≠ .sessionWrite) :
    t.out.events = Events.none := by
  rcases exec_next_cases h with ⟨-, r, rfl⟩ | ⟨-, rfl⟩ | ⟨id, rtr, len, data, now, rfl, -⟩ | ⟨sig, -, hx⟩ |
    ⟨sig, -, hx⟩ | ⟨sig, -, hx⟩
  · rfl
  · rfl
  · exact absurd rfl hi
  · obtain ⟨c, -, -, rfl⟩ := execWaitEnter_next hx
    rfl
  · obtain ⟨c, -, -, ⟨-, rfl⟩ | ⟨-, rfl⟩⟩ := execWaitObserve_next hx <;> rfl
  · obtain ⟨c, -, -, rfl⟩ := execWaitAbandon_next hx
    rfl

/-! ## The register reads -/

/-- `RD.HB` answers the fields of the record, absent while there is none (R145). -/
theorem exec_rdHb (s : State) :
    exec .rdHb s = .next (answer s (.lastHeartbeat (s.block.lastHb.map HbRecord.fields))) := rfl

/-! ## The statements -/

/-- Settles O14: by the steps a cell has. -/
theorem setFlagStaysUntilTheLastWaiterLeaves : Obligations.SetFlagStaysUntilTheLastWaiterLeaves :=
  fun _ _ _ c h hflag hi => (exec_cellStep h c).flag_stays hflag hi

/-- Settles O39: the pulses of the pin by its two levels, and its cells by its pulses. -/
theorem onePinOfAnUpdate : Obligations.OnePinOfAnUpdate := by
  intro s t id rtr len p now new n h hr
  obtain ⟨hio, alive, hev⟩ := execRx_pins h hr
  obtain ⟨hchange, hrise, hfall⟩ := edgeEvents_names s.block.ioState new alive n
  rw [← hev] at hchange hrise hfall
  have unnamed (c : Signal) (hc : t.out.events.names c = false) : t.block.cells.get c = s.block.cells.get c := by
    simpa [hc] using execRx_cell h c
  refine ⟨hio, fun hsame => ?_, fun hold hnew => ?_, fun hold hnew => ?_, ?_, ?_⟩
  · simp only [hsame, Bool.xor_self, Bool.not_and_self, Bool.and_not_self] at hchange hrise hfall
    exact ⟨hchange, hrise, hfall, unnamed _ hchange, unnamed _ hrise, unnamed _ hfall⟩
  · simp only [hold, hnew] at hchange hrise hfall
    exact ⟨hchange, hrise, hfall, unnamed _ hfall⟩
  · simp only [hold, hnew] at hchange hrise hfall
    exact ⟨hchange, hfall, hrise, unnamed _ hrise⟩
  · rw [hev]
    exact changedPins_eq_risen_or_fallen _ _
  · rw [hev]
    exact risenPins_and_fallenPins _ _

/-- Settles O40: no operation but `RX` pulses, and `RX` raises what its pulses name. -/
theorem raisesLatchOnlyForWaiters : Obligations.RaisesLatchOnlyForWaiters := by
  intro i s t c h
  by_cases hi : opClass i = .sessionWrite
  · obtain ⟨id, rtr, len, data, now, rfl⟩ := opClass_eq_sessionWrite_iff.mp hi
    refine ⟨fun hnamed => ⟨hi, ?_⟩, fun hunnamed _ => ?_⟩
    · rw [execRx_cell h c, if_pos hnamed]
      exact ⟨cell_raise_waiters _, by simp [cell_raise_flag]⟩
    · simpa [hunnamed] using execRx_cell h c
  · refine ⟨fun hnamed => ?_, fun _ hrx => absurd hrx hi⟩
    simp [exec_events_none h hi] at hnamed

/-- Settles O43. -/
theorem waitEnterRegistersOneWaiter : Obligations.WaitEnterRegistersOneWaiter := fun _ _ =>
  ⟨fun hres => onSignal_of_reserved hres _, fun _ hc =>
    ⟨fun hfull => exec_waitEnter_of_full hc (cell_full_of_greatest hfull), fun hroom =>
      ⟨_, exec_waitEnter_of_room hc (cell_full_eq_false_iff.mpr hroom), sameBut_answer_setCell _ _ _ _,
        bank_get_set_self _ _ _, rfl⟩⟩⟩

/-- Settles O44: by the count and the flag of the cell. -/
theorem waitObserveCompletesOneWait : Obligations.WaitObserveCompletesOneWait := by
  refine fun _ _ => ⟨fun hres => onSignal_of_reserved hres _, fun _ hc =>
    ⟨exec_waitObserve_of_no_waiter hc, exec_waitObserve_of_clear hc, fun hw hflag =>
      ⟨_, exec_waitObserve_of_set hc hw hflag, sameBut_answer_setCell _ _ _ _, ?_, rfl⟩⟩⟩
  have hleave := cell_leave_eq hw
  rw [hflag] at hleave
  exact (bank_get_set_self _ _ _).trans hleave

/-- Settles O45: by the count of the cell, whether or not it is set. -/
theorem waitAbandonWithdrawsOneWaiter : Obligations.WaitAbandonWithdrawsOneWaiter := fun _ _ =>
  ⟨fun hres => onSignal_of_reserved hres _, fun _ hc =>
    ⟨exec_waitAbandon_of_no_waiter hc, fun hw =>
      ⟨_, exec_waitAbandon_of_waiter hc hw, sameBut_answer_setCell _ _ _ _,
        (bank_get_set_self _ _ _).trans (cell_leave_eq hw), rfl⟩⟩⟩

/-- Settles O46: the task that entered is the only waiter, so the report sets the flag exactly when it raises the cell,
and the one that then leaves is the last. -/
theorem enteredTaskSeesExactlyTheRaise : Obligations.EnteredTaskSeesExactlyTheRaise := by
  intro s s1 s2 sig c id rtr len p now hc hclear henter hrx
  have hentered : s1.block.cells.get c = ⟨false, 1⟩ := by simp [exec_waitEnter_cell henter hc, hclear, Cell.enter]
  refine ⟨fun hnamed => ?_, fun hunnamed => ?_⟩
  · have hcell : s2.block.cells.get c = ⟨true, 1⟩ := by simp [execRx_cell hrx c, hnamed, hentered, Cell.raise]
    exact ⟨_, exec_waitObserve_of_set hc (by simp [hcell]) (by simp [hcell]), rfl, by simp [hcell, Cell.leave]⟩
  · have hcell : s2.block.cells.get c = ⟨false, 1⟩ := by simp [execRx_cell hrx c, hunnamed, hentered]
    exact ⟨exec_waitObserve_of_clear hc (by simp [hcell]) (by simp [hcell]),
      _, exec_waitAbandon_of_waiter hc (by simp [hcell]), by simp [hcell, Cell.leave]⟩

/-- Settles O47: `RD.HB` by whether there is a record, the other reads by evaluation. -/
theorem readsAnswerTheRegisters : Obligations.ReadsAnswerTheRegisters := by
  refine fun s => ⟨rfl, fun _ => rfl, fun hinvalid => ?_, fun r hr => ?_, rfl⟩
  · rw [exec_rdHb, hbValid_eq_false_iff.mp hinvalid]
    rfl
  · rw [exec_rdHb, hr]
    rfl

end Sys2Proof.Machine
end

section
/-! SUPPORT. The rules the liveness statements of 45_liveness_output.md turn on: which `now` may be issued and what becomes
of one that may not, what the liveness check answers, and what `CHKALIVE` and `SETOUT` do with its answer. -/

namespace Sys2Proof.Machine

/-! ## Which `now` may be issued -/

section Time

variable {s : State} {now : Nat}

/-- With no heartbeat record, the port and the earlier steps alone bound `now` (R153, R168). -/
theorem admits_of_no_heartbeat (hfits : ∀ w, s.cfg.timeW = some w → now < 2 ^ w)
    (hsteps : ∀ n, s.lastNow = some n → n ≤ now) (hb : s.block.lastHb = none) : s.admits now :=
  ⟨hfits, hsteps, by simp [hb]⟩

/-- With a record, its time is one more lower bound (R153). -/
theorem admits_of_heartbeat {r : HbRecord} (hfits : ∀ w, s.cfg.timeW = some w → now < 2 ^ w)
    (hsteps : ∀ n, s.lastNow = some n → n ≤ now) (hb : s.block.lastHb = some r) (hr : r.time ≤ now) : s.admits now :=
  ⟨hfits, hsteps, by simpa [hb] using hr⟩

/-- A `now` before the last Heartbeat is refused, whatever the operation would do with it (R153). -/
theorem withTime_of_before_heartbeat {r : HbRecord} (hfits : ∀ w, s.cfg.timeW = some w → now < 2 ^ w)
    (hb : s.block.lastHb = some r) (hr : now < r.time) (k : State → Host.Outcome State Fault Refusal) :
    withTime s now k = .refused .timeBackwards := by
  have hbefore : beforeLastHb s.block now = true := by simpa [beforeLastHb, hb] using hr
  simp [withTime, timeFits_iff.mpr hfits, hbefore]

/-- Whether a `now` is refused, and why, does not depend on the operation that carries it. -/
theorem admits_or_refused (s : State) (now : Nat) :
    s.admits now ∨ ∃ why, ∀ k, withTime s now k = .refused why := by
  unfold withTime
  split
  next hfits =>
    split
    · exact .inr ⟨_, fun _ => rfl⟩
    next hbounds =>
      obtain ⟨hsteps, hhb⟩ : beforeLastNow s.lastNow now = false ∧ beforeLastHb s.block now = false := by
        simpa using hbounds
      exact .inl ⟨timeFits_iff.mp hfits, beforeLastNow_eq_false_iff.mp hsteps, beforeLastHb_eq_false_iff.mp hhb⟩
  · exact .inr ⟨_, fun _ => rfl⟩

end Time

/-! ## The liveness check -/

section Liveness

variable {ticks now : Nat} {b : Session} {r : HbRecord}

theorem liveness_of_no_heartbeat (hb : b.lastHb = none) : liveness ticks b now = .noHeartbeat := by
  simp [liveness, hb]

theorem liveness_of_old (hb : b.lastHb = some r) (hold : ticks < now - r.time) :
    liveness ticks b now = .heartbeatTimeout := by
  simp [liveness, hb, hold]

theorem liveness_of_fresh (hb : b.lastHb = some r) (hfresh : now - r.time ≤ ticks) : liveness ticks b now = .ok := by
  simp [liveness, hb, hfresh]

end Liveness

/-! ## `CHKALIVE` and `SETOUT` -/

section Operations

variable {s : State} {now : Nat}

/-- `CHKALIVE` answers the status of the liveness check (R140). -/
theorem exec_chkalive_of_liveness {st : Status} (ha : s.admits now)
    (hl : liveness s.cfg.aliveTicks s.block now = st) :
    exec (.chkalive now) s = .next (answer { s with lastNow := some now } (.status st)) := by
  simp [exec, execChkalive, withTime_of_admits ha, hl]

/-- `SETOUT` answers its frame when the liveness check passes (R142). -/
theorem exec_setout_of_alive (value : Byte) (ha : s.admits now)
    (hl : liveness s.cfg.aliveTicks s.block now = .ok) :
    exec (.setout value now) s =
      .next (answer { s with lastNow := some now } (.frame (frameOf s.cfg.nodeId (.setIoState value)))) := by
  simp [exec, execSetout, withTime_of_admits ha, hl]

/-- `SETOUT` answers the error of the liveness check, and no frame (R142). -/
theorem exec_setout_of_liveness_error {st : Status} (value : Byte) (ha : s.admits now)
    (hl : liveness s.cfg.aliveTicks s.block now = st) (hst : st ≠ .ok) :
    exec (.setout value now) s = .next (raiseError { s with lastNow := some now } st) := by
  simp [exec, execSetout, withTime_of_admits ha, hl]

/-- `CHKALIVE` is refused with a `now` before the last Heartbeat (R140, R153). -/
theorem exec_chkalive_of_before_heartbeat {r : HbRecord} (hfits : ∀ w, s.cfg.timeW = some w → now < 2 ^ w)
    (hb : s.block.lastHb = some r) (hr : now < r.time) : exec (.chkalive now) s = .refused .timeBackwards := by
  simp [exec, execChkalive, withTime_of_before_heartbeat hfits hb hr]

/-- `SETOUT` is refused with a `now` before the last Heartbeat (R142, R153). -/
theorem exec_setout_of_before_heartbeat {r : HbRecord} (value : Byte)
    (hfits : ∀ w, s.cfg.timeW = some w → now < 2 ^ w) (hb : s.block.lastHb = some r) (hr : now < r.time) :
    exec (.setout value now) s = .refused .timeBackwards := by
  simp [exec, execSetout, withTime_of_before_heartbeat hfits hb hr]

/-- What `CHKALIVE` and `SETOUT` do from one state at one time: `OK` and the frame, the same error, or the same refusal
(R144). -/
theorem exec_chkalive_setout_cases (s : State) (value : Byte) (now : Nat) :
    (exec (.chkalive now) s = .next (answer { s with lastNow := some now } (.status .ok)) ∧
      exec (.setout value now) s =
        .next (answer { s with lastNow := some now } (.frame (frameOf s.cfg.nodeId (.setIoState value))))) ∨
    (∃ st, st ≠ .ok ∧ exec (.chkalive now) s = .next (raiseError { s with lastNow := some now } st) ∧
      exec (.setout value now) s = .next (raiseError { s with lastNow := some now } st)) ∨
    (∃ why, exec (.chkalive now) s = .refused why ∧ exec (.setout value now) s = .refused why) := by
  rcases admits_or_refused s now with ha | ⟨why, hrefused⟩
  · by_cases hl : liveness s.cfg.aliveTicks s.block now = .ok
    · exact .inl ⟨exec_chkalive_of_liveness ha hl, exec_setout_of_alive value ha hl⟩
    · exact .inr (.inl ⟨_, hl, exec_chkalive_of_liveness ha rfl, exec_setout_of_liveness_error value ha rfl hl⟩)
  · exact .inr (.inr ⟨why, by simp [exec, execChkalive, hrefused], by simp [exec, execSetout, hrefused]⟩)

end Operations

/-! ## The statements -/

/-- Settles O48: the record decides whether `now` may be issued, and then the status of the liveness check. -/
theorem chkaliveOutcomes : Obligations.ChkaliveOutcomes := fun _ _ hfits hsteps =>
  ⟨fun hb => exec_chkalive_of_liveness (admits_of_no_heartbeat hfits hsteps hb) (liveness_of_no_heartbeat hb),
    fun _ hb =>
      ⟨exec_chkalive_of_before_heartbeat hfits hb,
        fun hr hold => exec_chkalive_of_liveness (admits_of_heartbeat hfits hsteps hb hr) (liveness_of_old hb hold),
        fun hr hfresh =>
          exec_chkalive_of_liveness (admits_of_heartbeat hfits hsteps hb hr) (liveness_of_fresh hb hfresh)⟩⟩

/-- Settles O49: the two errors of the liveness check, and the frame of format `F1` when it passes. -/
theorem setoutOutcomes : Obligations.SetoutOutcomes := fun _ value _ hfits hsteps =>
  ⟨fun hb => exec_setout_of_liveness_error value (admits_of_no_heartbeat hfits hsteps hb)
      (liveness_of_no_heartbeat hb) (by decide),
    fun _ hb =>
      ⟨exec_setout_of_before_heartbeat value hfits hb,
        fun hr hold => exec_setout_of_liveness_error value (admits_of_heartbeat hfits hsteps hb hr)
          (liveness_of_old hb hold) (by decide),
        fun hr hfresh => ⟨_, genId_toNat _ 3,
          exec_setout_of_alive value (admits_of_heartbeat hfits hsteps hb hr) (liveness_of_fresh hb hfresh)⟩⟩⟩

/-- Settles O50: both run or both are refused, and where both run the one liveness check decides both results. -/
theorem setoutAgreesWithChkalive : Obligations.SetoutAgreesWithChkalive := by
  intro s value now
  rcases exec_chkalive_setout_cases s value now with ⟨hchk, hset⟩ | ⟨st, hst, hchk, hset⟩ | ⟨why, hchk, hset⟩
  · simp +contextual [hchk, hset, eq_comm]
  · simp [hchk, hset, hst]
  · simp [hchk, hset]

end Sys2Proof.Machine
end

section
/-! SUPPORT. The rules the exception statements of 60_exceptions.md turn on: that no operation faults, what an operation
that answers an error leaves as it was, and which `now` is refused by every operation that carries one. -/

namespace Sys2Proof.Machine

/-! ## No fault -/

/-- A `WAIT.*` operation faults only where its meaning on some cell does. -/
theorem onSignal_ne_fault {k : Signal → Host.Outcome State Fault Refusal} {f : Fault} (hk : ∀ c, k c ≠ .fault f)
    (sig : SigNum) : onSignal sig k ≠ .fault f := by
  unfold onSignal
  split
  · nofun
  · exact hk _

/-- An operation with a `now` faults only where its meaning on some state does. -/
theorem withTime_ne_fault {k : State → Host.Outcome State Fault Refusal} {f : Fault} (hk : ∀ s, k s ≠ .fault f)
    (s : State) (now : Nat) : withTime s now k ≠ .fault f := by
  rcases admits_or_refused s now with ha | ⟨why, hrefused⟩
  · rw [withTime_of_admits ha]
    exact hk _
  · rw [hrefused]
    nofun

/-- `RX` reads no payload outside its length, for it dispatches what `DEC` decoded (R91, R100). -/
theorem execRx_ne_fault (id : Ident) (rtr : Bool) (len : Len) (p : Payload) (now : Nat) (s : State) (f : Fault) :
    execRx id rtr len p now s ≠ .fault f := by
  refine withTime_ne_fault (fun s => ?_) s now
  split
  · nofun
  · split
    · nofun
    · split
      · nofun
      next hd => exact absurd hd (decodeFrame_ne_none id len p)
      · nofun

/-- The liveness check and the command it gates read no payload (R140, R142). -/
theorem execChkalive_ne_fault (now : Nat) (s : State) (f : Fault) : execChkalive now s ≠ .fault f :=
  withTime_ne_fault (fun s => by nofun) s now

theorem execSetout_ne_fault (value : Byte) (now : Nat) (s : State) (f : Fault) : execSetout value now s ≠ .fault f :=
  withTime_ne_fault (fun s => by split <;> nofun) s now

/-- No operation faults (R164): a codec operation answers from every state, `RX` decodes as `DEC` does, and no other
operation reads a payload. -/
theorem exec_ne_fault (i : Instr) (s : State) (f : Fault) : exec i s ≠ .fault f := by
  by_cases hc : opClass i = .pureCodec
  · obtain ⟨r, hr⟩ := exec_pureCodec_answers hc
    rw [hr s]
    nofun
  cases i with
  | rx id rtr len p now => exact execRx_ne_fault id rtr len p now s f
  | setout value now => exact execSetout_ne_fault value now s f
  | chkalive now => exact execChkalive_ne_fault now s f
  | waitEnter sig => exact onSignal_ne_fault (fun c => by split <;> nofun) sig
  | waitObserve sig =>
    refine onSignal_ne_fault (fun c => ?_) sig
    split
    · nofun
    · split <;> nofun
  | waitAbandon sig => exact onSignal_ne_fault (fun c => by split <;> nofun) sig
  | reset | rdIostate | rdPin | rdHb | rdNodeid | reservedCmd => nofun
  | _ => exact absurd rfl hc

/-! ## Errors -/

/-- An operation that answers a status other than `OK` raised it as an error, on the state that remembers its `now`
(R152, R163; log 8). -/
theorem exec_eq_raiseError {i : Instr} {s t : State} {st : Status} (h : exec i s = .next t)
    (hr : t.out.result = .status st) (hst : st ≠ .ok) : t = raiseError (s.noted i) st := by
  rcases exec_next_cases h with ⟨-, r, rfl⟩ | ⟨-, rfl⟩ | ⟨id, rtr, len, data, now, rfl, hx⟩ | ⟨sig, -, hx⟩ |
    ⟨sig, rfl, hx⟩ | ⟨sig, -, hx⟩
  · obtain rfl : r = .status st := hr
    rfl
  · cases hr
  · obtain ⟨-, -, -, -, -, -, ⟨ht, -⟩ | ⟨hb, hmessage, -⟩ | ⟨v, hmessage, -⟩⟩ := execRx_report hx
    · rw [hr] at ht
      exact ht
    · simp [hr] at hmessage
    · simp [hr] at hmessage
  · obtain ⟨c, -, -, rfl⟩ := execWaitEnter_next hx
    cases hr
  · obtain ⟨c, -, -, ⟨-, rfl⟩ | ⟨-, rfl⟩⟩ := execWaitObserve_next hx
    · cases hr
      exact absurd rfl hst
    · cases hr
      rfl
  · obtain ⟨c, -, -, rfl⟩ := execWaitAbandon_next hx
    cases hr

/-! ## Which `now` is refused -/

section Time

variable {s : State} {now : Nat}

/-- A `now` before that of an earlier step of the session is refused, whatever the operation would do with it (R153,
R168). -/
theorem withTime_of_before_lastNow {n : Nat} (hfits : ∀ w, s.cfg.timeW = some w → now < 2 ^ w)
    (hn : s.lastNow = some n) (hlt : now < n) (k : State → Host.Outcome State Fault Refusal) :
    withTime s now k = .refused .timeBackwards := by
  have hbefore : beforeLastNow s.lastNow now = true := by simpa [beforeLastNow, hn] using hlt
  simp [withTime, timeFits_iff.mpr hfits, hbefore]

/-- A `now` that a finite `TIME_W` cannot carry is refused, whatever the operation would do with it (R168; log 9). -/
theorem withTime_of_wide {w : Nat} (hw : s.cfg.timeW = some w) (hwide : 2 ^ w ≤ now)
    (k : State → Host.Outcome State Fault Refusal) : withTime s now k = .refused .timeTooWide := by
  have hfits : timeFits s.cfg.timeW now = false := by simpa [timeFits, hw] using hwide
  simp [withTime, hfits]

/-- An operation that carries a `now` has its meaning under the refusals of `now` (R153, R168). -/
theorem exec_eq_withTime {i : Instr} (ht : timeOf i = some now) : ∃ k, ∀ s, exec i s = withTime s now k := by
  cases i <;> cases ht
  case rx => exact ⟨_, fun _ => by rw [exec, execRx]⟩
  case setout => exact ⟨_, fun _ => by rw [exec, execSetout]⟩
  case chkalive => exact ⟨_, fun _ => by rw [exec, execChkalive]⟩

/-- A refusal of the `now` refuses every operation that carries it. -/
theorem exec_refused_of_withTime {i : Instr} {why : Refusal} (ht : timeOf i = some now)
    (hrefused : ∀ k, withTime s now k = .refused why) : exec i s = .refused why := by
  obtain ⟨k, hk⟩ := exec_eq_withTime ht
  exact (hk s).trans (hrefused k)

end Time

/-! ## The statements -/

/-- Settles O8: a step is idle, refuses lanes that are no operation, or runs an operation, and no operation faults. -/
theorem stepNeverFaults : Obligations.StepNeverFaults := by
  intro s f
  cases hp : s.pending with
  | nil =>
    rw [step_of_pending_nil hp]
    nofun
  | cons issue rest =>
    cases hd : decode issue with
    | error e =>
      rw [step_of_decode_error hp hd]
      nofun
    | ok i =>
      rw [step_of_pending_cons hp hd]
      exact exec_ne_fault i _ f

/-- Settles O11: every status other than `OK` was raised as an error. -/
theorem errorsChangeNothing : Obligations.ErrorsChangeNothing :=
  fun _ _ _ _ h hr hst => exec_eq_raiseError h hr hst

/-- Settles O13: the record is kept, or has the `now` of an `RX`, which was admitted only at or after the old record. -/
theorem heartbeatTimeNeverGoesBack : Obligations.HeartbeatTimeNeverGoesBack := by
  intro i s t r r' h hr hr'
  rcases exec_lastHb_cases h with ⟨-, hkept⟩ | ⟨id, rtr, len, data, now, hb, rfl, -, hrec⟩ | ⟨-, hnone⟩
  · obtain rfl : r = r' := by simpa using hr.symm.trans (hkept.symm.trans hr')
    exact le_rfl
  · obtain rfl : ⟨hb, now⟩ = r' := by simpa using hrec.symm.trans hr'
    obtain ⟨hadmits, -⟩ := exec_admits h rfl
    exact hadmits.heartbeat r hr
  · simp [hnone] at hr'

/-- Settles O37: each of the two bounds refuses the `now`, and with it the operation. -/
theorem decreasingNowIsRefused : Obligations.DecreasingNowIsRefused := by
  intro s now hfits hback
  have hrefused : ∀ k, withTime s now k = .refused .timeBackwards := by
    rcases hback with ⟨n, hn, hlt⟩ | ⟨r, hb, hlt⟩
    · exact withTime_of_before_lastNow hfits hn hlt
    · exact withTime_of_before_heartbeat hfits hb hlt
  exact ⟨fun _ _ _ _ => exec_refused_of_withTime rfl hrefused, fun _ => exec_refused_of_withTime rfl hrefused,
    exec_refused_of_withTime rfl hrefused⟩

/-- Settles O58: an operation with a `now` was admitted with it; any other keeps the last one, but for `RESET`. -/
theorem nowNeverDecreases : Obligations.NowNeverDecreases := by
  intro i s t h
  refine ⟨fun now htime => ?_, fun htime hi => ?_, ?_⟩
  · obtain ⟨hadmits, hnow⟩ := exec_admits h htime
    exact ⟨hnow, hadmits.steps⟩
  · rcases exec_lastNow_cases h with ⟨now, hsome, -⟩ | ⟨-, -, hkept⟩ | ⟨hreset, -⟩
    · simp [htime] at hsome
    · exact hkept
    · exact absurd hreset hi
  · rintro rfl
    cases h
    rfl

/-- Settles O51: the width refuses the `now`, and with it the operation. -/
theorem wideNowIsRefused : Obligations.WideNowIsRefused := fun _ _ _ hw hwide =>
  ⟨fun _ _ _ _ => exec_refused_of_withTime rfl (withTime_of_wide hw hwide),
    fun _ => exec_refused_of_withTime rfl (withTime_of_wide hw hwide),
    exec_refused_of_withTime rfl (withTime_of_wide hw hwide)⟩

end Sys2Proof.Machine
end

section
/-! SUPPORT. The rules the reset statements of 70_reset_and_hazards.md turn on: the state a `RESET` leaves, that a second
`RESET` has no wait left to cancel, and that no other operation touches the account of cancelled waits. -/

namespace Sys2Proof.Machine

/-! ## The account of cancelled waits -/

/-- With no waiter in any cell there is no wait to cancel (R181). -/
@[simp] theorem cancelWaits_all_clear (cancelled : Bank Nat) :
    cancelWaits cancelled (Bank.all Cell.clear) = cancelled :=
  bank_ext fun c => by simp [Cell.clear]

/-- Only `RESET` writes the account of cancelled waits (R181; log 11). -/
theorem exec_cancelledWaits_kept {i : Instr} {s t : State} (h : exec i s = .next t) (hi : i ≠ .reset) :
    t.cancelledWaits = s.cancelledWaits := by
  rcases exec_next_cases h with ⟨-, r, rfl⟩ | ⟨hreset, -⟩ | ⟨id, rtr, len, data, now, -, hx⟩ | ⟨sig, -, hx⟩ |
    ⟨sig, -, hx⟩ | ⟨sig, -, hx⟩
  · rfl
  · exact absurd hreset hi
  · obtain ⟨-, -, -, hkept, -⟩ := execRx_report hx
    exact hkept
  · obtain ⟨c, -, -, rfl⟩ := execWaitEnter_next hx
    rfl
  · obtain ⟨c, -, -, ⟨-, rfl⟩ | ⟨-, rfl⟩⟩ := execWaitObserve_next hx <;> rfl
  · obtain ⟨c, -, -, rfl⟩ := execWaitAbandon_next hx
    rfl

/-! ## The state a `RESET` leaves -/

/-- The state after a `RESET` (R180): the registers at their reset values, a new session, the waits accounted for. -/
def State.afterReset (s : State) : State where
  cfg := s.cfg
  block := Session.initial s.cfg.ioReset
  lastNow := none
  cancelledWaits := cancelWaits s.cancelledWaits s.block.cells
  pending := s.pending
  out := Output.idle

theorem exec_reset (s : State) : exec .reset s = .next s.afterReset := rfl

@[simp] theorem afterReset_block (s : State) : s.afterReset.block = Session.initial s.cfg.ioReset := rfl
@[simp] theorem afterReset_cancelledWaits (s : State) :
    s.afterReset.cancelledWaits = cancelWaits s.cancelledWaits s.block.cells := rfl

theorem afterReset_cell (s : State) (c : Signal) : s.afterReset.block.cells.get c = Cell.clear := by simp

/-- A second `RESET` finds every register at its reset value and no waiter. -/
theorem afterReset_afterReset (s : State) : s.afterReset.afterReset = s.afterReset := by
  have haccount : cancelWaits s.afterReset.cancelledWaits s.afterReset.block.cells = s.afterReset.cancelledWaits := by
    simp
  rw [State.afterReset, haccount]
  rfl

/-- After a `RESET` there is neither a record nor an earlier step to bound `now`: the width of the port alone does (R168,
R180; log 8). -/
theorem admits_afterReset {s : State} {now : Nat} (hfits : ∀ w, s.afterReset.cfg.timeW = some w → now < 2 ^ w) :
    s.afterReset.admits now :=
  admits_of_no_heartbeat hfits (fun _ h => nomatch h) rfl

/-! ## The statements -/

/-- Settles O53: the waiters of each cell go to the account, which the other operations keep. -/
theorem resetCancelsThePendingWaits : Obligations.ResetCancelsThePendingWaits :=
  ⟨fun s => ⟨s.afterReset, exec_reset s, rfl, cancelWaits_get s.cancelledWaits s.block.cells⟩,
    fun _ _ _ => exec_cancelledWaits_kept⟩

/-- Settles O52: the reset values field by field, and the second `RESET` by the account, to which it adds nothing. -/
theorem resetInitialisesTheSession : Obligations.ResetInitialisesTheSession := fun s =>
  ⟨s.afterReset, exec_reset s, rfl, rfl, rfl, rfl, rfl, rfl, afterReset_cell s, rfl,
    (exec_reset s.afterReset).trans (congrArg _ (afterReset_afterReset s))⟩

/-- Settles O54: after a `RESET` the `now` may be issued, and the liveness check finds no record. -/
theorem afterResetTheDeviceIsNotAlive : Obligations.AfterResetTheDeviceIsNotAlive := by
  intro s t now value hreset hfits
  obtain rfl : s.afterReset = t := by simpa [exec_reset] using hreset
  have hadmits : s.afterReset.admits now := admits_afterReset hfits
  have hliveness : liveness s.afterReset.cfg.aliveTicks s.afterReset.block now = .noHeartbeat :=
    liveness_of_no_heartbeat rfl
  exact ⟨exec_chkalive_of_liveness hadmits hliveness,
    exec_setout_of_liveness_error value hadmits hliveness (by decide)⟩

end Sys2Proof.Machine
end
